-- ==== Sys2Proof/Word.lean ====
section
/-! DEFINITION. The byte, the four-byte word of the key schedule and the fixed-length byte array of the
AES128-CTR core (00_scope.md R16, R17). Only the types stand here; what is computed on them stands under
Machine/. -/

namespace Sys2Proof

/-- A byte: 8 bits, bit 7 the most significant (R16). -/
abbrev Byte := BitVec 8

/-- A byte array of a fixed length, index 0 its first byte (R16): KEY, BLK_IN, BLK_OUT, CB, RK, and the
16-byte State of the block transform in its column-major sequence (R18). -/
abbrev Bytes (n : Nat) := Vector Byte n

/-- A word `[b0, b1, b2, b3]` of the key schedule, `b0` its first byte (R17, R120). No rule computes on a
word as one number, so it is four bytes and no bit vector. -/
structure Word where
  b0 : Byte
  b1 : Byte
  b2 : Byte
  b3 : Byte
  deriving DecidableEq, Repr

end Sys2Proof
end

