-- ==== Sys2Proof/Syntax.lean ====
section
/-! DEFINITION. The four commands (30_encoding.md R92), the host's bus accesses (20_memory.md R63, R64), the
events that can happen to the core (10_state.md R20, R191) and the lines of the host-script notation
(30_encoding.md R101). -/

namespace Sys2Proof

/-- The commands of command set 1, one per row of spec/opcode_table.json. No command has an operand: each
reads and writes fixed registers (R91, R23). -/
inductive Instr where
  /-- 0x00000001: expand KEY into RK (R125). -/
  | expand
  /-- 0x00000002: encrypt BLK_IN into BLK_OUT (R137). -/
  | encblk
  /-- 0x00000003: derive CB from ICTR and BLKIDX (R147). -/
  | ctrblk
  /-- 0x00000004: the CTR stream of DIN into DOUT (R152). -/
  | process
  deriving DecidableEq, Repr

/-- The three windows a host can address (R40, R63). -/
inductive Win where
  | reg
  | din
  | dout
  deriving DecidableEq, Repr

/-- One host bus access: `n` bytes at offset `off` of a window. The data of a write is the number on the bus,
whose bits 8k+7 down to 8k belong to offset `off + k` (R61). -/
inductive Access where
  | read (win : Win) (off n : Nat)
  | write (win : Win) (off n : Nat) (v : BitVec 64)
  deriving DecidableEq, Repr

/-- What can happen next to the core: a host access, a turn of the sequencer (which completes the pending
operation if there is one, R97), or the reset input RST (R190). -/
inductive Event where
  | access (a : Access)
  | sequencer
  | rst
  deriving DecidableEq, Repr

/-- What the core answers to one host access on the bus (R63, R64, R68). -/
inductive Reply where
  /-- A read of `n` bytes that was taken, with its value, zero above bit 8n-1. -/
  | data (n : Nat) (v : BitVec 64)
  /-- A write that was taken; also one that was dropped because BUSY was 1, which is signalled nowhere. -/
  | ack
  /-- The error response to a refused read, with the unspecified value it returns. -/
  | readError (v : BitVec 64)
  /-- The error response to a refused write. -/
  | writeError
  deriving DecidableEq, Repr

/-- A line of the host-script notation (R101): `wr<bits>`, `rd<bits>`, `cmd MNEMONIC`, `wait`. -/
inductive Line where
  | wr (bits : Nat) (win : Win) (off : Nat) (v : BitVec 64)
  | rd (bits : Nat) (win : Win) (off : Nat)
  | cmd (i : Instr)
  | wait
  deriving DecidableEq, Repr

end Sys2Proof
end

