-- ==== Sys2Proof/Decode.lean ====
section
/-! DEFINITION. Decoding and encoding of the 32-bit command word (30_encoding.md R90, R92, R94, R97). The
decoder is total: every word is one of the four commands or is rejected under a name that says which check it
fails. The words R94 calls illegal are exactly the rejected ones; what their completion does stands in
Machine/Ops.lean. -/

namespace Sys2Proof

/-- Why a command word is illegal (R94). -/
inductive DecodeError where
  /-- Bits 31:8, the ZERO field, are not zero. -/
  | zeroField (bits : BitVec 24)
  /-- ZERO is zero and the opcode is none of 0x01 to 0x04. -/
  | opcode (opc : BitVec 8)
  deriving DecidableEq, Repr

/-- The OPC field, bits 7:0 (R90). -/
def opcField (w : BitVec 32) : BitVec 8 := w.extractLsb' 0 8

/-- The ZERO field, bits 31:8 (R90). -/
def zeroField (w : BitVec 32) : BitVec 24 := w.extractLsb' 8 24

/-- The opcode map of R92. -/
def opcodeMap (opc : BitVec 8) : Option Instr :=
  if opc = 0x01 then some .expand
  else if opc = 0x02 then some .encblk
  else if opc = 0x03 then some .ctrblk
  else if opc = 0x04 then some .process
  else none

/-- Decoding, in the order of R97: the ZERO field first, then the opcode. -/
def decode (w : BitVec 32) : Except DecodeError Instr :=
  if zeroField w ≠ 0 then .error (.zeroField (zeroField w))
  else
    match opcodeMap (opcField w) with
    | some i => .ok i
    | none => .error (.opcode (opcField w))

/-- The command word of a command (R92). -/
def encode : Instr → BitVec 32
  | .expand => 0x00000001
  | .encblk => 0x00000002
  | .ctrblk => 0x00000003
  | .process => 0x00000004

/-- Decoding from the four bytes of the word as they lie in the CMD register, byte `k` at offset `k`
(little-endian, R61). -/
def decodeBytes (b0 b1 b2 b3 : BitVec 8) : Except DecodeError Instr := decode (b3 ++ b2 ++ b1 ++ b0)

/-- The instruction the decoder reads from a word whose low `nbits` bits are those of `w`, the bits above
them zero. -/
def decodeTableWord (nbits w : Nat) : Option Instr :=
  let v := w % 2 ^ nbits
  match decodeBytes (.ofNat 8 v) (.ofNat 8 (v >>> 8)) (.ofNat 8 (v >>> 16)) (.ofNat 8 (v >>> 24)) with
  | .ok i => some i
  | .error _ => none

end Sys2Proof
end

