-- ==== Sys2Proof/Config.lean ====
section
/-! DEFINITION. What an implementation of the core fixes (the parameters of 00_scope.md R13) and the free
values: the bytes the spec calls unspecified, as constants with no body (93_implementation_defined.md U1,
U2, U4, U6). -/

namespace Sys2Proof

/-- The open parameters of R13. They never change while the machine runs (R20); State carries one `Params`
so that a statement about every state is a statement about every legal choice of them. -/
structure Params where
  /-- BUFCAP: the size in bytes of DIN and of DOUT. -/
  bufcap : Nat
  /-- NLANES: the number of block lanes. No rule's result depends on it (R183), so nothing reads it. -/
  nlanes : Nat
  /-- REG_BASE, DIN_BASE, DOUT_BASE: where the platform puts the three windows. No rule depends on them:
  every access names an offset inside a window (R13, R73). -/
  regBase : Nat
  dinBase : Nat
  doutBase : Nat
  deriving DecidableEq, Repr

/-- The size of the register window in bytes (R14, R26). -/
def Config.regSize : Nat := 0x200

/-- A byte the spec calls unspecified at the moment it is read or stored: byte `lane` of draw number `draw`.
It has no body, so nothing in Lean can say which byte it is. Every draw of the machine uses a new draw number,
so that two reads need not agree (R63, U1, U4, U6; log entry 2). -/
opaque Config.freeByte : Nat → Nat → Byte

/-- What a byte of DIN that nothing has written since reset number `epoch` holds: unspecified, but the same
at every read until the next reset (R42, U2; log entry 3). -/
opaque Config.dinInit : Nat → Nat → Byte

/-- What a byte of DOUT that no PROCESS has written since reset number `epoch` holds (R42, U2; log entry 3). -/
opaque Config.doutInit : Nat → Nat → Byte

end Sys2Proof
end

