-- ==== Sys2Proof/Machine/State.lean ====
section
/-! DEFINITION. The state of the core (10_state.md R21), its value after reset (R46), the errors of a command
(60_exceptions.md R166) and the reasons a step could stop. -/

namespace Sys2Proof.Machine

/-- The reasons a step can fault: none. The core has no fault state (93_implementation_defined.md, opening of
"U"): every issued command completes (R98), an error ends a command with a code in STATUS.ERR (R170), and a
refused host access is answered on the bus (R68). No constructor, so nothing raises one: safe. -/
inductive Fault where
  deriving DecidableEq, Repr

/-- The reasons a step can be refused. -/
inductive Refusal where
  /-- An instruction without a meaning would be rejected by name in Dispatch.lean's arm; all four have theirs,
  so nothing raises it: safe. -/
  | notModelled (mnemonic : String)
  deriving DecidableEq, Repr

/-- The errors a command can end with (R166). -/
inductive CmdError where
  | invalidKeyLength
  | counterOverflow
  | illegalCommand
  | noSchedule
  | lengthRange
  deriving DecidableEq, Repr

/-- The contents of a data buffer: the bytes written since reset, as cells of strictly rising offset (the
canonical form `Memory.wf`). An offset not listed holds no written byte. -/
abbrev Memory := List Host.Cell

/-- STATUS (R28). Its reserved bits read 0 and hold nothing. -/
structure Status where
  /-- 1 from the issue of a command to its completion. -/
  busy : Bool
  /-- 1 when the last issued command has completed. -/
  done : Bool
  /-- 1 when RK holds a schedule made by a successful key expansion. -/
  rkvalid : Bool
  /-- The error code of the last completed command. -/
  err : BitVec 8
  deriving DecidableEq, Repr

/-- The state: the architectural state of R21, field by field, and below it the model's own fields. -/
structure State where
  /-- KEY: the 16 key bytes (R34). -/
  key : Bytes 16
  /-- KEYLEN: the declared key length in bytes (R29). -/
  keylen : BitVec 32
  /-- ICTR: `initial_counter` (R30). -/
  ictr : BitVec 64
  /-- BLKIDX: the `block_index` of a direct CTRBLK (R31). -/
  blkidx : BitVec 64
  /-- LEN: the length of the data in bytes (R32). -/
  len : BitVec 64
  /-- OUTLEN: the valid output bytes of the last PROCESS (R33). -/
  outlen : BitVec 64
  /-- BLK_IN: the block ENCBLK encrypts (R35). -/
  blkIn : Bytes 16
  /-- BLK_OUT: the result of the last successful ENCBLK (R36). -/
  blkOut : Bytes 16
  /-- CB: the result of the last successful CTRBLK (R37). -/
  cb : Bytes 16
  /-- RK: the round-key memory (R38). While STATUS.RKVALID is 0 nothing reads what it stores. -/
  rk : Bytes 176
  /-- DIN: the input buffer (R40, R42). -/
  din : Memory
  /-- DOUT: the output buffer (R40, R42). -/
  dout : Memory
  /-- STATUS (R28). -/
  status : Status
  /-- OP: the latched command word, meaningful while BUSY is 1 (R43). -/
  op : BitVec 32
  /-- The model's own: the open parameters (R13), which no step changes (log entry 1). -/
  params : Params
  /-- The model's own: what happens next, in order. It stands for the host's program and for the interleaving
  of its accesses with the sequencer (R75); when it is empty the sequencer moves (log entry 5). -/
  agenda : List Event
  /-- The model's own: the bus answers to the host accesses so far, newest first (log entry 6). -/
  replies : List Reply
  /-- The model's own: the number of the next draw of unspecified bytes (log entry 2). -/
  draws : Nat
  /-- The model's own: how many times RST has come, which names the unspecified contents of the buffers since
  then (log entry 3). -/
  epoch : Nat
  deriving DecidableEq, Repr

/-- The state after reset (R46, R191). The values R46 leaves unspecified are those of log entries 3 (DIN,
DOUT: nothing written) and 4 (RK, OP: zero, and never seen); the parameters are those of log entry 1. -/
def State.reset : State where
  key := Vector.replicate 16 0
  keylen := 0
  ictr := 0
  blkidx := 0
  len := 0
  outlen := 0
  blkIn := Vector.replicate 16 0
  blkOut := Vector.replicate 16 0
  cb := Vector.replicate 16 0
  rk := Vector.replicate 176 0
  din := []
  dout := []
  status := { busy := false, done := false, rkvalid := false, err := 0 }
  op := 0
  params := { bufcap := 4096, nlanes := 1, regBase := 0x0000, dinBase := 0x1000, doutBase := 0x2000 }
  agenda := []
  replies := []
  draws := 0
  epoch := 0

end Sys2Proof.Machine
end

