-- ==== Sys2Proof/Machine/Operands.lean ====
section
/-! DEFINITION. How bytes are taken out of and put into the core's operands: elements of byte arrays, byte
lanes of scalars in the host bus's little-endian order (20_memory.md R61), and the register map of the REG
window (10_state.md R26). -/

namespace Sys2Proof.Machine

/-- Element `k` of a byte array; 0 outside it. -/
def byteAt {n : Nat} (v : Bytes n) (k : Nat) : Byte := v[k]?.getD 0

/-- The byte array whose element `k` is `f k`, for `k` below `n`: the "for k in 0..n-1" of the pseudocode. -/
def tabulate (n : Nat) (f : Nat → Byte) : Bytes n := ⟨⟨(List.range n).map f⟩, by simp⟩

/-- The byte array with element `k` replaced by `b`; unchanged when `k` is outside it. -/
def setByteAt {n : Nat} (v : Bytes n) (k : Nat) (b : Byte) : Bytes n :=
  tabulate n fun j => if j = k then b else byteAt v j

/-- Byte `k` of a scalar: bits 8k+7 down to 8k (R61). -/
def lane {w : Nat} (v : BitVec w) (k : Nat) : Byte := v.extractLsb' (8 * k) 8

/-- The scalar with byte `k` replaced by `b`, its other bits kept (R61, R62). -/
def setLane {w : Nat} (v : BitVec w) (k : Nat) (b : Byte) : BitVec w :=
  (v &&& ~~~((0xFF : BitVec w) <<< (8 * k))) ||| (b.setWidth w <<< (8 * k))

/-- The scalar of width `w` whose byte `k` is `f k` for `k` below `n`, its other bits zero (R61, R63). -/
def ofLanes (w : Nat) (f : Nat → Byte) : Nat → BitVec w
  | 0 => 0
  | n + 1 => ofLanes w f n ||| ((f n).setWidth w <<< (8 * n))

/-- What the REG window holds at an offset (R26). -/
inductive Loc where
  | cmd
  | status
  | keylen
  | ictr
  | blkidx
  | len
  | outlen
  | key
  | blkIn
  | blkOut
  | cb
  | rk
  | reserved
  deriving DecidableEq, Repr

/-- The register map (R26): the register at an offset of REG, and which byte of it stands there. -/
def regMap (a : Nat) : Loc × Nat :=
  if a < 0x004 then (.cmd, a)
  else if a < 0x008 then (.status, a - 0x004)
  else if a < 0x00C then (.keylen, a - 0x008)
  else if a < 0x010 then (.reserved, a - 0x00C)
  else if a < 0x018 then (.ictr, a - 0x010)
  else if a < 0x020 then (.blkidx, a - 0x018)
  else if a < 0x028 then (.len, a - 0x020)
  else if a < 0x030 then (.outlen, a - 0x028)
  else if a < 0x040 then (.reserved, a - 0x030)
  else if a < 0x050 then (.key, a - 0x040)
  else if a < 0x060 then (.blkIn, a - 0x050)
  else if a < 0x070 then (.blkOut, a - 0x060)
  else if a < 0x080 then (.cb, a - 0x070)
  else if a < 0x100 then (.reserved, a - 0x080)
  else if a < 0x1B0 then (.rk, a - 0x100)
  else (.reserved, a - 0x1B0)

/-- Byte-wise exclusive or of a list of data bytes with the first bytes of a block; the block's surplus is
discarded (R152, R155). -/
def xorData (bs : List Byte) (ks : Bytes 16) : List Byte := List.zipWith (· ^^^ ·) bs ks.toList

end Sys2Proof.Machine
end

