-- ==== Sys2Proof/Machine/Flags.lean ====
section
/-! DEFINITION. The STATUS register: its word as the host reads it (10_state.md R28), the error codes
(60_exceptions.md R166), and what issue and completion do to the flags (20_memory.md R65, 30_encoding.md R97). -/

namespace Sys2Proof.Machine

/-- The code of an error in STATUS.ERR (R166). -/
def errCode : CmdError → BitVec 8
  | .invalidKeyLength => 1
  | .counterOverflow => 2
  | .illegalCommand => 3
  | .noSchedule => 4
  | .lengthRange => 5

/-- STATUS as one 32-bit number (R28): BUSY bit 0, DONE bit 1, RKVALID bit 2, ERR bits 15:8, the reserved
bits zero. -/
def statusWord (st : Status) : BitVec 32 :=
  (0 : BitVec 16) ++ st.err ++ (0 : BitVec 5) ++ BitVec.ofBool st.rkvalid ++ BitVec.ofBool st.done ++
    BitVec.ofBool st.busy

/-- STATUS at the issue of a command (R65): BUSY set, DONE and ERR cleared, RKVALID kept. -/
def issuedStatus (st : Status) : Status := { st with busy := true, done := false, err := 0 }

/-- STATUS at the completion of a command with code `code` (R97): ERR written, BUSY cleared, DONE set, RKVALID
as the command left it. -/
def completedStatus (code : BitVec 8) (st : Status) : Status :=
  { st with busy := false, done := true, err := code }

/-- Byte `k` of STATUS as the host reads it. While BUSY is 1 it reads BUSY = 1, DONE = 0, ERR = 0 and an
unspecified RKVALID (R63, R28; 90_conflicts.md C7), here bit 2 of the free byte `free`. -/
def statusByte (free : Byte) (st : Status) (k : Nat) : Byte :=
  if st.busy then (if k = 0 then 0x01 ||| (free &&& 0x04) else 0)
  else lane (statusWord st) k

end Sys2Proof.Machine
end

