-- ==== Sys2Proof/WellFormed.lean ====
section
/-! DEFINITION. The checks on syntax and on parameters: an instruction (it has no operand to check), a host
access (20_memory.md R66, R67, R68) and the open parameters (00_scope.md R13, 93_implementation_defined.md P). -/

namespace Sys2Proof

/-- A command has no operand and no field (R90, R91), so each of the four is well formed. -/
def Instr.wellFormed : Instr → Bool
  | .expand => true
  | .encblk => true
  | .ctrblk => true
  | .process => true

/-- The size in bytes of a window, for buffers of `cap` bytes (R26, R40). -/
def Win.size (cap : Nat) : Win → Nat
  | .reg => Config.regSize
  | .din => cap
  | .dout => cap

/-- The accesses a bus width allows: 1, 2, 4 or 8 bytes (R63, R68). -/
def accessWidth (n : Nat) : Bool := n == 1 || n == 2 || n == 4 || n == 8

/-- An access of `n` bytes at `off` is taken when its width is one of the four, its offset a multiple of the
width (R66) and all of it inside the window (R67). Every other access is refused (R68). -/
def accessTaken (cap : Nat) (win : Win) (off n : Nat) : Bool :=
  accessWidth n && off % n == 0 && decide (off + n ≤ win.size cap)

/-- The same check on the access itself. -/
def Access.wellFormed (cap : Nat) : Access → Bool
  | .read win off n => accessTaken cap win off n
  | .write win off n _ => accessTaken cap win off n

/-- Two ranges of addresses that share no address. -/
def rangesApart (a m b n : Nat) : Bool := decide (a + m ≤ b) || decide (b + n ≤ a)

/-- What R13 and the parameter table of 93 ask of the parameters: BUFCAP a multiple of 16 from 16 to 2^60,
NLANES at least 1, the three windows apart. -/
def Params.wellFormed (p : Params) : Bool :=
  p.bufcap % 16 == 0 && decide (16 ≤ p.bufcap) && decide (p.bufcap ≤ 2 ^ 60) && decide (1 ≤ p.nlanes) &&
    rangesApart p.regBase Config.regSize p.dinBase p.bufcap &&
    rangesApart p.regBase Config.regSize p.doutBase p.bufcap &&
    rangesApart p.dinBase p.bufcap p.doutBase p.bufcap

end Sys2Proof
end

