-- ==== Sys2Proof/Machine/Ops.lean ====
section
/-! DEFINITION. The named operations on the state: the data buffers (20_memory.md R70), the issue and the
completion of a command (R65, 30_encoding.md R97), raising an error (60_exceptions.md R170), storing and
dropping a schedule (10_state.md R38), and the reset input (70_reset_and_hazards.md R191). -/

namespace Sys2Proof.Machine

/-! ### The data buffers -/

/-- The canonical form of a buffer: offsets strictly rising. An unlisted offset has no written byte, which no
listed cell could say, so no entry is superfluous. -/
abbrev Memory.wf (m : Memory) : Prop := m.Pairwise fun c d => c.1 < d.1

/-- Every written byte of a buffer lies below `cap`. -/
abbrev Memory.below (cap : Nat) (m : Memory) : Prop := ∀ c ∈ m, c.1 < cap

/-- The byte written at an offset, if any has been. -/
def Memory.get? : Memory → Nat → Option Byte
  | [], _ => none
  | c :: m, a => if a = c.1 then some c.2 else Memory.get? m a

/-- Write one byte, keeping the offsets rising. -/
def Memory.set : Memory → Nat → Byte → Memory
  | [], a, b => [(a, b)]
  | c :: m, a, b =>
    if a < c.1 then (a, b) :: c :: m
    else if a = c.1 then (a, b) :: m
    else c :: Memory.set m a b

/-- `MemWrite` (R19): the bytes of `bs` to the offsets `a`, `a + 1`, and so on. -/
def Memory.write : Memory → Nat → List Byte → Memory
  | m, _, [] => m
  | m, a, b :: bs => Memory.write (Memory.set m a b) (a + 1) bs

/-- The byte of DIN at an offset: the one written since reset, else its unspecified stable contents (R42, U2). -/
def dinByte (s : State) (a : Nat) : Byte := (Memory.get? s.din a).getD (Config.dinInit s.epoch a)

/-- The byte of DOUT at an offset, in the same way (R42, U2). -/
def doutByte (s : State) (a : Nat) : Byte := (Memory.get? s.dout a).getD (Config.doutInit s.epoch a)

/-- `MemRead(DIN, a, n)` (R19): the `n` bytes from offset `a` upward. -/
def dinRead (s : State) (a n : Nat) : List Byte := (List.range n).map fun j => dinByte s (a + j)

/-! ### Issue and completion -/

/-- The pending command word, decoded (R97). -/
def pending (s : State) : Except DecodeError Instr := decode s.op

/-- Issue of the command word `cw` (R65): OP latched, BUSY set, DONE and ERR cleared. -/
def issue (cw : BitVec 32) (s : State) : State := { s with op := cw, status := issuedStatus s.status }

/-- The end of a completion step with error code `code` (R97). -/
def complete (code : BitVec 8) (s : State) : State := { s with status := completedStatus code s.status }

/-- The end of a command that raised nothing (R97). -/
def finish (s : State) : State := complete 0 s

/-- `raise E` (R170): the command ends here; what it wrote before stands; ERR records the code, BUSY is
cleared and DONE set. That is the whole of taking an error: nothing is saved, no mode changes, control goes
nowhere. There is no return (R172): the next issue clears ERR and DONE. -/
def raise (e : CmdError) (s : State) : State := complete (errCode e) s

/-- The completion of an illegal command word (R94, R169): IllegalCommand, nothing else written. -/
def illegalCommand (s : State) : State := raise .illegalCommand s

/-! ### The schedule -/

/-- Store a schedule: all 176 bytes of RK in one step, and RKVALID set (R38, R125). -/
def installSchedule (rk : Bytes 176) (s : State) : State :=
  { s with rk := rk, status := { s.status with rkvalid := true } }

/-- Give up the schedule: RKVALID cleared, and the bytes of RK unspecified from then on (R125,
90_conflicts.md C6), so free values of a new draw take their place. -/
def dropSchedule (s : State) : State :=
  { s with
    rk := tabulate 176 (Config.freeByte s.draws)
    draws := s.draws + 1
    status := { s.status with rkvalid := false } }

/-! ### Reset -/

/-- The reset input RST (R190, R191): every piece of state to its reset value at once, a pending operation
abandoned (R192). What stands outside the core stays: the parameters, what the host does next and the bus
answers so far. The buffers' unspecified contents are new ones (U13). -/
def resetCore (s : State) : State :=
  { State.reset with
    params := s.params
    agenda := s.agenda
    replies := s.replies
    draws := s.draws
    epoch := s.epoch + 1 }

end Sys2Proof.Machine
end

