-- ==== Sys2Proof/Machine/Bus.lean ====
section
/-! DEFINITION. The host bus: what a read returns (20_memory.md R63), what a write stores (R64), the issue of a
command by a write that covers CMD (R65), and the answer to a refused access (R68). -/

namespace Sys2Proof.Machine

/-- Put the answer to a host access on the bus. -/
def reply (r : Reply) (s : State) : State := { s with replies := r :: s.replies }

/-- Byte `k` of the register `l` as a host read sees it (R63). `free` is the unspecified byte this read would
return at this place: for an output location (OUTLEN, BLK_OUT, CB, RK) while BUSY is 1, for RK also while
RKVALID is 0, and for the RKVALID bit of STATUS while BUSY is 1. CMD and reserved offsets read as 0. -/
def readLoc (free : Byte) (s : State) (l : Loc) (k : Nat) : Byte :=
  match l with
  | .cmd => 0
  | .status => statusByte free s.status k
  | .keylen => lane s.keylen k
  | .ictr => lane s.ictr k
  | .blkidx => lane s.blkidx k
  | .len => lane s.len k
  | .outlen => if s.status.busy then free else lane s.outlen k
  | .key => byteAt s.key k
  | .blkIn => byteAt s.blkIn k
  | .blkOut => if s.status.busy then free else byteAt s.blkOut k
  | .cb => if s.status.busy then free else byteAt s.cb k
  | .rk => if s.status.busy || !s.status.rkvalid then free else byteAt s.rk k
  | .reserved => 0

/-- `ReadByte(WIN, a)` (R63). DOUT is an output location, DIN is none. -/
def readByte (free : Byte) (s : State) (win : Win) (a : Nat) : Byte :=
  match win with
  | .reg => readLoc free s (regMap a).1 (regMap a).2
  | .din => dinByte s a
  | .dout => if s.status.busy then free else doutByte s a

/-- The value of a taken read of `n` bytes at offset `off` (R63), all bytes sampled at one instant. -/
def readValue (s : State) (win : Win) (off n : Nat) : BitVec 64 :=
  ofLanes 64 (fun k => readByte (Config.freeByte s.draws k) s win (off + k)) n

/-- A taken host read (R63): the value goes on the bus; no state of the core changes. -/
def hostRead (win : Win) (off n : Nat) (s : State) : State :=
  { reply (.data n (readValue s win off n)) s with draws := s.draws + 1 }

/-- Store byte `b` as byte `k` of the register `l` where the host may write it; nothing otherwise (R64). -/
def writeLoc (l : Loc) (k : Nat) (b : Byte) (s : State) : State :=
  match l with
  | .cmd => s
  | .status => s
  | .keylen => { s with keylen := setLane s.keylen k b }
  | .ictr => { s with ictr := setLane s.ictr k b }
  | .blkidx => { s with blkidx := setLane s.blkidx k b }
  | .len => { s with len := setLane s.len k b }
  | .outlen => s
  | .key => { s with key := setByteAt s.key k b }
  | .blkIn => { s with blkIn := setByteAt s.blkIn k b }
  | .blkOut => s
  | .cb => s
  | .rk => s
  | .reserved => s

/-- `WriteByte(WIN, a, b)` (R64): every byte of DIN and of the host-writable registers is stored, every other
location ignores it. -/
def writeByte (win : Win) (a : Nat) (b : Byte) (s : State) : State :=
  match win with
  | .reg => writeLoc (regMap a).1 (regMap a).2 b s
  | .din => { s with din := Memory.set s.din a b }
  | .dout => s

/-- Store the first `n` bytes of the bus number `v` from offset `off` upward (R64). -/
def writeBytes (win : Win) (off : Nat) (v : BitVec 64) : Nat → State → State
  | 0, s => s
  | n + 1, s => writeByte win (off + n) (lane v n) (writeBytes win off v n s)

/-- The command word of a write of `n` bytes at offset 0x000 (R65): byte `k` is the byte written to offset `k`,
or 0x00 where the access does not reach. -/
def commandWord (n : Nat) (v : BitVec 64) : BitVec 32 := ofLanes 32 (fun k => if k < n then lane v k else 0) 4

/-- Whether an access to a window covers offset 0x000 of REG (R65). -/
def coversCmd (win : Win) (off : Nat) : Bool := win == .reg && off == 0

/-- A taken host write (R64). While BUSY is 1 all of it is dropped. Otherwise its bytes are stored, and then a
command is issued if it covers offset 0x000 of REG (R65). -/
def hostWrite (win : Win) (off n : Nat) (v : BitVec 64) (s : State) : State :=
  if s.status.busy then reply .ack s
  else if coversCmd win off then reply .ack (issue (commandWord n v) (writeBytes win off v n s))
  else reply .ack (writeBytes win off v n s)

/-- A host access (R63, R64). A refused one gets the error response and changes no state of the core; a refused
read returns an unspecified value (R68; log entry 7). -/
def hostAccess (a : Access) (s : State) : State :=
  match a with
  | .read win off n =>
    if accessTaken s.params.bufcap win off n then hostRead win off n s
    else { reply (.readError (ofLanes 64 (Config.freeByte s.draws) 8)) s with draws := s.draws + 1 }
  | .write win off n v =>
    if accessTaken s.params.bufcap win off n then hostWrite win off n v s
    else reply .writeError s

end Sys2Proof.Machine
end

