-- ==== Sys2Proof/Machine/BlockTransform.lean ====
section
/-! DEFINITION. The block transform (42_block_transform.md) and the command ENCBLK. A State matrix is its
16-byte column-major sequence, byte `4c + r` the byte in row `r`, column `c` (R18, R130), so loading and storing
the State are the identity. -/

namespace Sys2Proof.Machine

/-- `SubBytes`: every byte replaced by its S-box image (R131). -/
def subBytes (s : Bytes 16) : Bytes 16 := tabulate 16 fun k => sbox (byteAt s k)

/-- `ShiftRows`: row `r` shifted left by `r` places, `s'[4c + r] = s[4((c + r) mod 4) + r]` (R132). -/
def shiftRows (s : Bytes 16) : Bytes 16 := tabulate 16 fun k => byteAt s (4 * ((k / 4 + k % 4) % 4) + k % 4)

/-- The new byte in row `r` of a column with bytes `a0` to `a3` (R133). -/
def mixByte (a0 a1 a2 a3 : Byte) : Nat → Byte
  | 0 => mul2 a0 ^^^ mul3 a1 ^^^ a2 ^^^ a3
  | 1 => a0 ^^^ mul2 a1 ^^^ mul3 a2 ^^^ a3
  | 2 => a0 ^^^ a1 ^^^ mul2 a2 ^^^ mul3 a3
  | _ => mul3 a0 ^^^ a1 ^^^ a2 ^^^ mul2 a3

/-- `MixColumns`: each column multiplied by the fixed matrix, from the column's old bytes (R133). -/
def mixColumns (s : Bytes 16) : Bytes 16 :=
  tabulate 16 fun k =>
    mixByte (byteAt s (4 * (k / 4))) (byteAt s (4 * (k / 4) + 1)) (byteAt s (4 * (k / 4) + 2))
      (byteAt s (4 * (k / 4) + 3)) (k % 4)

/-- `AddRoundKey`: exclusive or with round key `r`, `RK[16r..16r+15]` (R134). -/
def addRoundKey (rk : Bytes 176) (r : Nat) (s : Bytes 16) : Bytes 16 :=
  tabulate 16 fun k => byteAt s k ^^^ byteAt rk (16 * r + k)

/-- One of the rounds 1 to 9 (R135). -/
def midRound (rk : Bytes 176) (r : Nat) (s : Bytes 16) : Bytes 16 :=
  addRoundKey rk r (mixColumns (shiftRows (subBytes s)))

/-- The State after the initial AddRoundKey and rounds 1 to `n` (R135). -/
def afterRounds (rk : Bytes 176) (block : Bytes 16) : Nat → Bytes 16
  | 0 => addRoundKey rk 0 block
  | n + 1 => midRound rk (n + 1) (afterRounds rk block n)

/-- `Cipher` (R135): the initial AddRoundKey, rounds 1 to 9, and round 10 without MixColumns. -/
def cipher (rk : Bytes 176) (block : Bytes 16) : Bytes 16 :=
  addRoundKey rk 10 (shiftRows (subBytes (afterRounds rk block 9)))

/-- ENCBLK (R137): without a valid schedule NoSchedule is raised; otherwise BLK_OUT takes the cipher of BLK_IN
under the schedule in RK. -/
def execEncblk (s : State) : Host.Outcome State Fault Refusal :=
  if s.status.rkvalid then .next (finish { s with blkOut := cipher s.rk s.blkIn })
  else .next (raise .noSchedule s)

end Sys2Proof.Machine
end

