-- ==== Sys2Proof/Machine/CounterBlock.lean ====
section
/-! DEFINITION. The counter-block generator (43_counter_block.md) and the command CTRBLK. -/

namespace Sys2Proof.Machine

/-- The layout of a counter block with counter value `v` (R145; 90_conflicts.md C1): bytes 0 to 7 zero, bytes 8
to 15 the value as 64 bits, most significant byte first. -/
def counterLayout (v : Nat) : Bytes 16 :=
  tabulate 16 fun k => if k < 8 then 0 else BitVec.ofNat 8 (v >>> (8 * (15 - k)))

/-- `CounterBlock(ic, idx)` for two unsigned 64-bit numbers (R146); `none` is CounterOverflow. The sum is taken
on the naturals and never modulo 2^64. -/
def counterBlock (ic idx : Nat) : Option (Bytes 16) :=
  if idx > 2 ^ 64 - 1 - ic then none else some (counterLayout (ic + idx))

/-- CTRBLK (R147): CB takes the counter block of ICTR and BLKIDX, or CounterOverflow is raised and CB stays. -/
def execCtrblk (s : State) : Host.Outcome State Fault Refusal :=
  match counterBlock s.ictr.toNat s.blkidx.toNat with
  | none => .next (raise .counterOverflow s)
  | some block => .next (finish { s with cb := block })

end Sys2Proof.Machine
end

