-- ==== Sys2Proof/Machine/KeySchedule.lean ====
section
/-! DEFINITION. The key schedule expander (41_key_schedule.md) and the command EXPAND. -/

namespace Sys2Proof.Machine

/-- The word that stands where no word of the schedule is asked for. -/
def zeroWord : Word := ⟨0, 0, 0, 0⟩

/-- Byte `j` of a word, `j` in 0..3 (R17, R124). -/
def wordByte (w : Word) : Nat → Byte
  | 0 => w.b0
  | 1 => w.b1
  | 2 => w.b2
  | 3 => w.b3
  | _ => 0

/-- Exclusive or of two words, byte by byte (R120). -/
def xorWord (a b : Word) : Word := ⟨a.b0 ^^^ b.b0, a.b1 ^^^ b.b1, a.b2 ^^^ b.b2, a.b3 ^^^ b.b3⟩

/-- `RotWord`: left byte-rotate by one (R121). -/
def rotWord (t : Word) : Word := ⟨t.b1, t.b2, t.b3, t.b0⟩

/-- `SubWord`: the S-box on each byte (R122). -/
def subWord (t : Word) : Word := ⟨sbox t.b0, sbox t.b1, sbox t.b2, sbox t.b3⟩

/-- The round constant XORed into the first byte of a word (R113, R123). -/
def addRcon (c : Byte) (t : Word) : Word := ⟨t.b0 ^^^ c, t.b1, t.b2, t.b3⟩

/-- Word `i`, `i` in 0..3, seeded from the key bytes (R123). -/
def keyWord (key : Bytes 16) (i : Nat) : Word :=
  ⟨byteAt key (4 * i), byteAt key (4 * i + 1), byteAt key (4 * i + 2), byteAt key (4 * i + 3)⟩

/-- The `temp` of R123 for word `i`: the word before, rotated, substituted and given its round constant when `i`
is a multiple of 4. -/
def scheduleTemp (i : Nat) (prev : Word) : Word :=
  if i % 4 = 0 then addRcon (rcon (i / 4)) (subWord (rotWord prev)) else prev

/-- Word `i`, `i` from 4 up, from the words before it (R123). -/
def nextWord (ws : List Word) (i : Nat) : Word :=
  xorWord (ws.getD (i - 4) zeroWord) (scheduleTemp i (ws.getD (i - 1) zeroWord))

/-- The words `w[0]` to `w[n+3]`: the loop of R123 after `n` turns. -/
def expandWords (key : Bytes 16) : Nat → List Word
  | 0 => [keyWord key 0, keyWord key 1, keyWord key 2, keyWord key 3]
  | n + 1 => expandWords key n ++ [nextWord (expandWords key n) (n + 4)]

/-- `KeyExpansion`: the 44 words of the schedule (R123). -/
def keyExpansion (key : Bytes 16) : List Word := expandWords key 40

/-- The words of a schedule as RK stores them: `RK[4i + j] = w[i][j]` (R124). -/
def packWords (ws : List Word) : Bytes 176 := tabulate 176 fun k => wordByte (ws.getD (k / 4) zeroWord) (k % 4)

/-- The round-key memory that belongs to a key (R38, R124). -/
def roundKeys (key : Bytes 16) : Bytes 176 := packWords (keyExpansion key)

/-- The declared key length is the one legal length, 16 (R29, R167). -/
def keyLengthOk (s : State) : Bool := s.keylen == 16

/-- EXPAND (R125): with KEYLEN other than 16 the schedule is given up and InvalidKeyLength raised; otherwise RK
takes the expansion of KEY and RKVALID is set. -/
def execExpand (s : State) : Host.Outcome State Fault Refusal :=
  if keyLengthOk s then .next (finish (installSchedule (roundKeys s.key) s))
  else .next (raise .invalidKeyLength (dropSchedule s))

end Sys2Proof.Machine
end

