-- ==== Sys2Proof/Machine/CtrStream.lean ====
section
/-! DEFINITION. The CTR stream processor (44_ctr_stream.md) and the command PROCESS. -/

namespace Sys2Proof.Machine

/-- `Keystream(i)` with the schedule in RK and the initial counter in ICTR (R151); `none` is CounterOverflow. -/
def keystream (s : State) (i : Nat) : Option (Bytes 16) := (counterBlock s.ictr.toNat i).map (cipher s.rk)

/-- `nblocks = ceil(LEN/16)` (R93). -/
def blockCount (s : State) : Nat := (s.len.toNat + 15) / 16

/-- The number of data bytes in block `i`: 16, or what is left of the data in the last block (R70). -/
def sliceLength (s : State) (i : Nat) : Nat := min 16 (s.len.toNat - 16 * i)

/-- The output bytes of block `i` under the keystream block `ks` (R152). -/
def blockOutput (s : State) (i : Nat) (ks : Bytes 16) : List Byte :=
  xorData (dinRead s (16 * i) (sliceLength s i)) ks

/-- Write the output of block `i` to DOUT at offset `16i` (R152, R70). -/
def processBlock (i : Nat) (ks : Bytes 16) (s : State) : State :=
  { s with dout := Memory.write s.dout (16 * i) (blockOutput s i ks) }

/-- The block loop of R152 with `left` blocks to go, the next of index `i`: at the first index whose counter
value does not fit, OUTLEN records the bytes written so far and CounterOverflow is raised (R156); after the last
block OUTLEN is LEN. -/
def processBlocks : Nat → Nat → State → State
  | 0, _, s => finish { s with outlen := s.len }
  | left + 1, i, s =>
    match keystream s i with
    | none => raise .counterOverflow { s with outlen := BitVec.ofNat 64 (16 * i) }
    | some ks => processBlocks left (i + 1) (processBlock i ks s)

/-- PROCESS (R152), its checks in the order of R153: the key length, the data length, the empty input (R154),
and then, the key expanded once, the counter of each block. -/
def execProcess (s : State) : Host.Outcome State Fault Refusal :=
  if !keyLengthOk s then .next (raise .invalidKeyLength { dropSchedule s with outlen := 0 })
  else if s.params.bufcap < s.len.toNat then .next (raise .lengthRange { s with outlen := 0 })
  else if s.len.toNat = 0 then .next (finish { s with outlen := 0 })
  else .next (processBlocks (blockCount s) 0 (installSchedule (roundKeys s.key) s))

end Sys2Proof.Machine
end

