-- ==== Sys2Proof/Machine/Dispatch.lean ====
section
/-! DEFINITION. One arm per command: the completion of each (30_encoding.md R97). -/

namespace Sys2Proof.Machine

def exec (i : Instr) (s : State) : Host.Outcome State Fault Refusal :=
  match i with
  | .expand => Sys2Proof.Machine.execExpand s
  | .encblk => Sys2Proof.Machine.execEncblk s
  | .ctrblk => Sys2Proof.Machine.execCtrblk s
  | .process => Sys2Proof.Machine.execProcess s

end Sys2Proof.Machine
end

