-- ==== Sys2Proof/Machine/Sequencer.lean ====
section
/-! DEFINITION. The sequencer's one step, the completion of the pending operation (30_encoding.md R97), and what
each event does. -/

namespace Sys2Proof.Machine

/-- The completion step (R97): decode OP and do the command's work, or complete an illegal word. -/
def completion (s : State) : Host.Outcome State Fault Refusal :=
  match pending s with
  | .ok i => exec i s
  | .error _ => .next (illegalCommand s)

/-- A turn of the sequencer: its step is enabled exactly when BUSY is 1 (R97); otherwise the core is idle and
keeps all its state (R181). -/
def sequencerTurn (s : State) : Host.Outcome State Fault Refusal :=
  if s.status.busy then completion s else .next s

/-- What an event does. -/
def takeEvent (e : Event) (s : State) : Host.Outcome State Fault Refusal :=
  match e with
  | .access a => .next (hostAccess a s)
  | .sequencer => sequencerTurn s
  | .rst => .next (resetCore s)

/-- Place a command for the very next step: the word is issued (R65) and the sequencer moves next. -/
def placeCommand (cw : BitVec 32) (s : State) : State :=
  { issue cw s with agenda := if s.agenda.isEmpty then [] else .sequencer :: s.agenda }

end Sys2Proof.Machine
end

