-- ==== Sys2Proof/Machine/Step.lean ====
section
/-! DEFINITION. One step of the machine: the next event of the agenda, or the sequencer when none is left
(20_memory.md R75, 30_encoding.md R98). -/

namespace Sys2Proof.Machine

/-- One step. The agenda says which agent moves next, so every interleaving of host accesses, completion steps
and resets (R75) is the run of some agenda. When it is empty the sequencer moves, so that a pending operation
completes (R98). -/
def step (s : State) : Host.Outcome State Fault Refusal :=
  match s.agenda with
  | [] => sequencerTurn s
  | e :: rest => takeEvent e { s with agenda := rest }

/-- `s` with the command word whose low `nbits` bits are those of `w` placed where the next step takes its
command from: issued as a host write to CMD would issue it (R65), with the sequencer to move. -/
def State.withFetchWord (s : State) (nbits w : Nat) : State := placeCommand (BitVec.ofNat 32 (w % 2 ^ nbits)) s

end Sys2Proof.Machine
end

