-- ==== Sys2Proof/Safety.lean ====
section
/-! DEFINITION. What counts as a legal state: the relations between fields that the spec promises of every state
a run reaches. -/

namespace Sys2Proof.Safety

open Sys2Proof.Machine

/-- STATUS is legal (R28, R166): BUSY and DONE never both 1, no reserved error code, and no error code while
DONE is 0. -/
def StatusLegal (st : Status) : Prop :=
  ¬(st.busy = true ∧ st.done = true) ∧ st.err.toNat ≤ 5 ∧ (st.done = false → st.err = 0)

/-- A buffer is in canonical form and lies inside its BUFCAP bytes (R40). -/
def BufferLegal (cap : Nat) (m : Memory) : Prop := Memory.wf m ∧ Memory.below cap m

/-- A legal state: legal parameters (R13), legal STATUS, legal buffers, OUTLEN at most BUFCAP (R27). -/
structure Legal (s : State) : Prop where
  params : s.params.wellFormed = true
  status : StatusLegal s.status
  din : BufferLegal s.params.bufcap s.din
  dout : BufferLegal s.params.bufcap s.dout
  outlen : s.outlen.toNat ≤ s.params.bufcap

/-- RKVALID means what R28 says: while it is 1, RK holds the schedule of some key. -/
def ScheduleLegal (s : State) : Prop := s.status.rkvalid = true → ∃ key : Bytes 16, s.rk = roundKeys key

/-- The locations a host write can store to (R26, R64): KEYLEN, ICTR, BLKIDX, LEN, KEY, BLK_IN and all of DIN. -/
def hostWritable (win : Win) (a : Nat) : Prop :=
  match win with
  | .reg => (0x008 ≤ a ∧ a < 0x00C) ∨ (0x010 ≤ a ∧ a < 0x028) ∨ (0x040 ≤ a ∧ a < 0x060)
  | .din => True
  | .dout => False

end Sys2Proof.Safety
end

