-- ==== Sys2Proof/Certificates/Slice0/Obligations.lean ====
section
/-! DEFINITION. The statements about the core, each a rule of spec/ or a property derived from rules, and the few
words they share. -/

namespace Sys2Proof.Claims

open Sys2Proof.Machine

/-- The step that takes the event `e` of a state whose agenda is `e` and then `rest`. -/
def stepWith (s : State) (e : Event) (rest : List Event) : Host.Outcome State Fault Refusal :=
  step { s with agenda := e :: rest }

/-- No command writes what this names (R23): the operand registers, DIN byte by byte, OP, the parameters, and
what belongs to the host. -/
def OperandsKept (s t : State) : Prop :=
  t.key = s.key ∧ t.keylen = s.keylen ∧ t.ictr = s.ictr ∧ t.blkidx = s.blkidx ∧ t.len = s.len ∧
    t.blkIn = s.blkIn ∧ (∀ a, dinByte t a = dinByte s a) ∧ t.op = s.op ∧ t.params = s.params ∧
    t.agenda = s.agenda ∧ t.replies = s.replies ∧ t.epoch = s.epoch

/-- How many bytes a PROCESS issued in `s` stores, from DOUT offset 0 upward: none when the key length or the
data length is refused, else the data up to the first block whose counter value passes 2^64 - 1 (R152, R156). -/
def storedBytes (s : State) : Nat :=
  if s.keylen = 16 ∧ s.len.toNat ≤ s.params.bufcap then min s.len.toNat (16 * (2 ^ 64 - s.ictr.toNat)) else 0

/-- The keystream byte that belongs to data offset `a`, under the KEY and ICTR of `s` (R151). -/
def keystreamByte (s : State) (a : Nat) : Byte :=
  byteAt (cipher (roundKeys s.key) (counterLayout (s.ictr.toNat + a / 16))) (a % 16)

end Sys2Proof.Claims

open Sys2Proof Sys2Proof.Machine Sys2Proof.Safety Sys2Proof.Claims

/-! ### Encoding -/

/-- R92, the words written out. -/
def Obligations.CommandWordsDecode : Prop :=
  decode 0x00000001 = .ok .expand ∧ decode 0x00000002 = .ok .encblk ∧ decode 0x00000003 = .ok .ctrblk ∧
    decode 0x00000004 = .ok .process ∧ decodeTableWord 32 1 = some .expand ∧ decodeTableWord 32 2 = some .encblk ∧
    decodeTableWord 32 3 = some .ctrblk ∧ decodeTableWord 32 4 = some .process

/-- R92, R94: each command decodes from its word and from no other. -/
def Obligations.DecodeAgreesWithEncode : Prop :=
  (∀ i : Instr, i.wellFormed = true → decode (encode i) = .ok i) ∧
    ∀ (w : BitVec 32) (i : Instr), decode w = .ok i → w = encode i

/-- R94: every word but the four is rejected, by the check it fails. -/
def Obligations.OtherWordsRejectedByName : Prop :=
  ∀ w : BitVec 32, (∀ i, w ≠ encode i) →
    (w.toNat / 256 ≠ 0 ∧ decode w = .error (.zeroField (w.extractLsb' 8 24))) ∨
      (w.toNat / 256 = 0 ∧ (w.toNat = 0 ∨ 5 ≤ w.toNat) ∧ decode w = .error (.opcode (w.extractLsb' 0 8)))

/-! ### Dispatch -/

/-- R97: while BUSY is 1 the sequencer's step is the command that OP decodes to. -/
def Obligations.StepRunsPendingCommand : Prop :=
  ∀ (s : State) (i : Instr), s.status.busy = true → decode s.op = .ok i →
    (s.agenda = [] → step s = exec i s) ∧
      ∀ rest, s.agenda = .sequencer :: rest → step s = exec i { s with agenda := rest }

/-- The word placed for the next step is the one it runs (R65, R97). -/
def Obligations.PlacedWordRunsNext : Prop :=
  ∀ (s : State) (i : Instr),
    step (s.withFetchWord 32 (encode i).toNat) = exec i { issue (encode i) s with agenda := s.agenda }

/-- R97, R181: with BUSY = 0 a turn of the sequencer changes nothing. -/
def Obligations.SequencerIdleWhenNotBusy : Prop :=
  ∀ s : State, s.status.busy = false →
    (s.agenda = [] → step s = .next s) ∧
      ∀ rest, s.agenda = .sequencer :: rest → step s = .next { s with agenda := rest }

/-- R169: the completion of a word that is none of the four. -/
def Obligations.IllegalCommandWritesOnlyStatus : Prop :=
  ∀ s : State, s.status.busy = true → (∀ i, s.op ≠ encode i) →
    sequencerTurn s =
      .next { s with status := { busy := false, done := true, rkvalid := s.status.rkvalid, err := 3 } }

/-- R97, R98, R170: every command completes from every state, with BUSY cleared, DONE set and an error code of
R166. -/
def Obligations.EveryCommandCompletes : Prop :=
  ∀ (i : Instr) (s : State), ∃ t, exec i s = .next t ∧ t.status.busy = false ∧ t.status.done = true ∧
    t.status.err.toNat ≤ 5 ∧ t.status.err ≠ 3

/-- No step stops (93, opening of "U"; R98). -/
def Obligations.NoStepStops : Prop :=
  ∀ s : State, ∃ t, step s = .next t

/-- R98, in the form the model's agenda gives it (log entry 5): a pending operation completes within as many steps as
events come before its completion, unless a reset abandons it. -/
def Obligations.PendingOperationCompletes : Prop :=
  ∀ s : State, s.status.busy = true → (∀ e ∈ s.agenda, e ≠ .rst) →
    ∃ k t, k ≤ s.agenda.length + 1 ∧ Sys2Proof.core.run k s = .next t ∧ t.status.busy = false ∧
      t.status.done = true

/-! ### Constant tables -/

/-- R111's corner cases. -/
def Obligations.SboxIsPermutation : Prop :=
  (∀ x y : Byte, sbox x = sbox y → x = y) ∧ (∀ x : Byte, sbox x ≠ x ∧ sbox x ≠ x ^^^ 0xFF) ∧
    sbox 0x00 = 0x63 ∧ sbox 0x52 = 0x00 ∧ sbox 0xff = 0x16 ∧ sbox 0x53 = 0xed

/-- R112: the table is the affine image of the multiplicative inverse. -/
def Obligations.SboxIsAffineInverse : Prop :=
  ∀ x : Byte, ∃ y : Byte, (x = 0 → y = 0) ∧ (x ≠ 0 → gmul x y = 0x01) ∧
    sbox x = y ^^^ y.rotateLeft 1 ^^^ y.rotateLeft 2 ^^^ y.rotateLeft 3 ^^^ y.rotateLeft 4 ^^^ 0x63

/-- R113. -/
def Obligations.RoundConstantsDouble : Prop :=
  (List.range 11).map rcon = [0x00, 0x01, 0x02, 0x04, 0x08, 0x10, 0x20, 0x40, 0x80, 0x1B, 0x36] ∧
    ∀ j, 1 ≤ j → j ≤ 9 → rcon (j + 1) = xtime (rcon j)

/-- R114, on the numbers. -/
def Obligations.XtimeDoublesAndReduces : Prop :=
  ∀ b : Byte, (xtime b).toNat = if b.toNat < 128 then 2 * b.toNat else (2 * b.toNat - 256) ^^^ 0x1B

/-- R115: the multipliers of MixColumns are the general product's. -/
def Obligations.MultipliersAreProducts : Prop :=
  ∀ b : Byte, mul2 b = gmul b 0x02 ∧ mul3 b = gmul b 0x03 ∧ mul3 b = mul2 b ^^^ b

/-! ### Key schedule and EXPAND -/

/-- R121, R122, byte by byte. -/
def Obligations.RotWordAndSubWord : Prop :=
  ∀ b0 b1 b2 b3 : Byte, rotWord ⟨b0, b1, b2, b3⟩ = ⟨b1, b2, b3, b0⟩ ∧
    subWord ⟨b0, b1, b2, b3⟩ = ⟨sbox b0, sbox b1, sbox b2, sbox b3⟩

/-- R123: 44 words, the first four from the key, each later one from the word four before and the word just
before. -/
def Obligations.KeyExpansionRecurrence : Prop :=
  ∀ key : Bytes 16, (keyExpansion key).length = 44 ∧
    (∀ i, i < 4 → (keyExpansion key)[i]? =
      some ⟨byteAt key (4 * i), byteAt key (4 * i + 1), byteAt key (4 * i + 2), byteAt key (4 * i + 3)⟩) ∧
    ∀ i, 4 ≤ i → i < 44 → ∃ before prev, (keyExpansion key)[i - 4]? = some before ∧
      (keyExpansion key)[i - 1]? = some prev ∧
      (keyExpansion key)[i]? = some
        (if i % 4 = 0 then
          ⟨before.b0 ^^^ (sbox prev.b1 ^^^ rcon (i / 4)), before.b1 ^^^ sbox prev.b2, before.b2 ^^^ sbox prev.b3,
            before.b3 ^^^ sbox prev.b0⟩
        else ⟨before.b0 ^^^ prev.b0, before.b1 ^^^ prev.b1, before.b2 ^^^ prev.b2, before.b3 ^^^ prev.b3⟩)

/-- R124: `RK[4i + j] = w[i][j]`, so that round key `r` is words `w[4r]` to `w[4r+3]`, and round key 0 is the key. -/
def Obligations.SchedulePacksWordsInOrder : Prop :=
  ∀ key : Bytes 16,
    (∀ i w, (keyExpansion key)[i]? = some w →
      byteAt (roundKeys key) (4 * i) = w.b0 ∧ byteAt (roundKeys key) (4 * i + 1) = w.b1 ∧
        byteAt (roundKeys key) (4 * i + 2) = w.b2 ∧ byteAt (roundKeys key) (4 * i + 3) = w.b3) ∧
    ∀ k, k < 16 → byteAt (roundKeys key) k = byteAt key k

/-- R125: EXPAND's two outcomes, everything not named unchanged. Of the bytes of RK after a failure nothing is
said: they are unspecified. -/
def Obligations.ExpandWritesSchedule : Prop :=
  ∀ s : State,
    (s.keylen = 16 → ∃ t, exec .expand s = .next t ∧
      (∀ i w, (keyExpansion s.key)[i]? = some w → byteAt t.rk (4 * i) = w.b0 ∧ byteAt t.rk (4 * i + 1) = w.b1 ∧
        byteAt t.rk (4 * i + 2) = w.b2 ∧ byteAt t.rk (4 * i + 3) = w.b3) ∧
      t = { s with rk := t.rk, status := { busy := false, done := true, rkvalid := true, err := 0 } }) ∧
    (s.keylen ≠ 16 → ∃ t, exec .expand s = .next t ∧
      t = { s with rk := t.rk, draws := t.draws,
                   status := { busy := false, done := true, rkvalid := false, err := 1 } })

/-- What EXPAND leaves unchanged (R125). -/
def Obligations.ExpandFrame : Prop :=
  ∀ s t : State, exec .expand s = .next t →
    OperandsKept s t ∧ t.outlen = s.outlen ∧ t.blkOut = s.blkOut ∧ t.cb = s.cb ∧
      ∀ a, doutByte t a = doutByte s a

/-! ### Block transform and ENCBLK -/

/-- R131, R134, byte by byte; AddRoundKey is its own inverse. -/
def Obligations.SubBytesAndAddRoundKey : Prop :=
  ∀ (s : Bytes 16) (rk : Bytes 176) (r k : Nat), k < 16 →
    byteAt (subBytes s) k = sbox (byteAt s k) ∧
      byteAt (addRoundKey rk r s) k = byteAt s k ^^^ byteAt rk (16 * r + k) ∧
      addRoundKey rk r (addRoundKey rk r s) = s

/-- R132: the byte in row `r`, column `c` comes from column `(c + r) mod 4` of the same row. -/
def Obligations.ShiftRowsShiftsEachRow : Prop :=
  ∀ (s : Bytes 16) (r c : Nat), r < 4 → c < 4 →
    byteAt (shiftRows s) (4 * c + r) = byteAt s (4 * ((c + r) % 4) + r)

/-- R133: each column is multiplied by the circulant of 02 03 01 01, products taken in GF(2^8). -/
def Obligations.MixColumnsMultipliesColumns : Prop :=
  ∀ (s : Bytes 16) (c r : Nat), c < 4 → r < 4 →
    byteAt (mixColumns s) (4 * c + r) =
      gmul (byteAt s (4 * c + r)) 0x02 ^^^ gmul (byteAt s (4 * c + (r + 1) % 4)) 0x03 ^^^
        byteAt s (4 * c + (r + 2) % 4) ^^^ byteAt s (4 * c + (r + 3) % 4)

/-- R135: the sub-steps in their order, ten rounds, the last without MixColumns. -/
def Obligations.CipherRoundStructure : Prop :=
  ∀ (rk : Bytes 176) (block : Bytes 16),
    cipher rk block = addRoundKey rk 10 (shiftRows (subBytes
      ([1, 2, 3, 4, 5, 6, 7, 8, 9].foldl
        (fun s round => addRoundKey rk round (mixColumns (shiftRows (subBytes s)))) (addRoundKey rk 0 block))))

/-- Under one schedule two blocks never have the same image (from R111, R131 to R135). -/
def Obligations.CipherIsInjective : Prop :=
  ∀ (rk : Bytes 176) (a b : Bytes 16), cipher rk a = cipher rk b → a = b

/-- R137: ENCBLK's two outcomes, everything not named unchanged. -/
def Obligations.EncblkEncryptsBlock : Prop :=
  ∀ s : State,
    (s.status.rkvalid = true → exec .encblk s = .next
      { s with blkOut := cipher s.rk s.blkIn,
               status := { busy := false, done := true, rkvalid := true, err := 0 } }) ∧
    (s.status.rkvalid = false → exec .encblk s = .next
      { s with status := { busy := false, done := true, rkvalid := false, err := 4 } })

/-- What ENCBLK leaves unchanged (R137). -/
def Obligations.EncblkFrame : Prop :=
  ∀ s t : State, exec .encblk s = .next t →
    OperandsKept s t ∧ t.outlen = s.outlen ∧ t.cb = s.cb ∧ t.rk = s.rk ∧ t.status.rkvalid = s.status.rkvalid ∧
      t.draws = s.draws ∧ ∀ a, doutByte t a = doutByte s a

/-- R198: a host write to KEY or KEYLEN, an 8-byte one over KEYLEN and the reserved bytes behind it too, changes
nothing of what ENCBLK then computes. -/
def Obligations.EncblkIgnoresKeyWrites : Prop :=
  ∀ (s : State) (off n : Nat) (v : BitVec 64), s.status.busy = false →
    accessTaken s.params.bufcap .reg off n = true →
    ((0x008 ≤ off ∧ off + n ≤ 0x010) ∨ (0x040 ≤ off ∧ off + n ≤ 0x050)) →
    ∃ s' t t', stepWith s (.access (.write .reg off n v)) [] = .next s' ∧ exec .encblk s = .next t ∧
      exec .encblk s' = .next t' ∧ t'.blkOut = t.blkOut ∧ t'.status = t.status

/-! ### Counter block and CTRBLK -/

/-- R145: bytes 0 to 7 zero, bytes 8 to 15 the counter value's bytes, most significant first. -/
def Obligations.CounterBlockLayout : Prop :=
  ∀ (ic idx : Nat) (block : Bytes 16), ic < 2 ^ 64 → idx < 2 ^ 64 → counterBlock ic idx = some block →
    (∀ k, k < 8 → byteAt block k = 0) ∧
      ∀ k, k < 8 → (byteAt block (8 + k)).toNat = (ic + idx) / 2 ^ (56 - 8 * k) % 256

/-- R146: CounterOverflow exactly when the sum passes 2^64 - 1; otherwise a block, which read as a 128-bit big-endian
number is the sum, and which depends on the sum only. -/
def Obligations.CounterBlockOverflow : Prop :=
  ∀ ic idx : Nat, ic < 2 ^ 64 → idx < 2 ^ 64 →
    (counterBlock ic idx = none ↔ 2 ^ 64 - 1 < ic + idx) ∧
      (ic + idx < 2 ^ 64 → counterBlock ic idx = counterBlock idx ic ∧
        counterBlock ic idx = counterBlock (ic + idx) 0 ∧
        ∃ block, counterBlock ic idx = some block ∧
          ∀ k, k < 16 → (byteAt block k).toNat = (ic + idx) / 2 ^ (120 - 8 * k) % 256)

/-- R147: CTRBLK's two outcomes, everything not named unchanged. -/
def Obligations.CtrblkDerivesBlock : Prop :=
  ∀ s : State,
    (s.blkidx.toNat ≤ 2 ^ 64 - 1 - s.ictr.toNat → ∃ block,
      counterBlock s.ictr.toNat s.blkidx.toNat = some block ∧
      exec .ctrblk s = .next
        { s with cb := block,
                 status := { busy := false, done := true, rkvalid := s.status.rkvalid, err := 0 } }) ∧
    (2 ^ 64 - 1 - s.ictr.toNat < s.blkidx.toNat → exec .ctrblk s = .next
      { s with status := { busy := false, done := true, rkvalid := s.status.rkvalid, err := 2 } })

/-- What CTRBLK leaves unchanged (R147). -/
def Obligations.CtrblkFrame : Prop :=
  ∀ s t : State, exec .ctrblk s = .next t →
    OperandsKept s t ∧ t.outlen = s.outlen ∧ t.blkOut = s.blkOut ∧ t.rk = s.rk ∧
      t.status.rkvalid = s.status.rkvalid ∧ t.draws = s.draws ∧ ∀ a, doutByte t a = doutByte s a

/-- Within one message no keystream block comes twice (R146's reason for the overflow error, with R135). -/
def Obligations.KeystreamBlocksDistinct : Prop :=
  ∀ (rk : Bytes 176) (ic i j : Nat), ic + i < 2 ^ 64 → ic + j < 2 ^ 64 → i ≠ j →
    cipher rk (counterLayout (ic + i)) ≠ cipher rk (counterLayout (ic + j))

/-! ### PROCESS -/

/-- R152, R155: a PROCESS whose checks all pass. -/
def Obligations.ProcessEncryptsData : Prop :=
  ∀ s : State, s.keylen = 16 → 0 < s.len.toNat → s.len.toNat ≤ s.params.bufcap →
    s.ictr.toNat + (s.len.toNat + 15) / 16 ≤ 2 ^ 64 →
    ∃ t, exec .process s = .next t ∧ t.status = { busy := false, done := true, rkvalid := true, err := 0 } ∧
      t.rk = roundKeys s.key ∧ t.outlen = s.len ∧
      (∀ a, a < s.len.toNat → doutByte t a = dinByte s a ^^^ keystreamByte s a) ∧
      ∀ a, s.len.toNat ≤ a → doutByte t a = doutByte s a

/-- R156: a PROCESS whose counter passes 2^64 - 1 writes exactly the blocks below the first failing index; and only
such a PROCESS ends with CounterOverflow. -/
def Obligations.ProcessStopsAtCounterOverflow : Prop :=
  (∀ s : State, s.keylen = 16 → s.len.toNat ≤ s.params.bufcap →
    2 ^ 64 < s.ictr.toNat + (s.len.toNat + 15) / 16 →
    ∃ t, exec .process s = .next t ∧ t.status = { busy := false, done := true, rkvalid := true, err := 2 } ∧
      t.rk = roundKeys s.key ∧ t.outlen.toNat = 16 * (2 ^ 64 - s.ictr.toNat) ∧
      (∀ a, a < t.outlen.toNat → doutByte t a = dinByte s a ^^^ keystreamByte s a) ∧
      ∀ a, t.outlen.toNat ≤ a → doutByte t a = doutByte s a) ∧
    ∀ s t : State, exec .process s = .next t → t.status.err = 2 →
      s.keylen = 16 ∧ s.len.toNat ≤ s.params.bufcap ∧ 2 ^ 64 < s.ictr.toNat + (s.len.toNat + 15) / 16

/-- R153, first check: an invalid key length gives up the schedule and stores nothing. Of the bytes of RK after
it nothing is said: they are unspecified. -/
def Obligations.ProcessRefusesKeyLength : Prop :=
  ∀ s : State, s.keylen ≠ 16 → ∃ t, exec .process s = .next t ∧
    t = { s with rk := t.rk, draws := t.draws, outlen := 0,
                 status := { busy := false, done := true, rkvalid := false, err := 1 } }

/-- R153, second check: data longer than the buffers. -/
def Obligations.ProcessRefusesLength : Prop :=
  ∀ s : State, s.keylen = 16 → s.params.bufcap < s.len.toNat → exec .process s = .next
    { s with outlen := 0, status := { busy := false, done := true, rkvalid := s.status.rkvalid, err := 5 } }

/-- R154: the empty input, whatever ICTR is. -/
def Obligations.ProcessEmptyInput : Prop :=
  ∀ s : State, s.keylen = 16 → s.len = 0 → exec .process s = .next
    { s with outlen := 0, status := { busy := false, done := true, rkvalid := s.status.rkvalid, err := 0 } }

/-- R153, R175: which error a PROCESS reports. -/
def Obligations.ProcessErrorPriority : Prop :=
  ∀ s : State, ∃ t, exec .process s = .next t ∧
    t.status.err =
      if s.keylen ≠ 16 then 1
      else if s.params.bufcap < s.len.toNat then 5
      else if s.len.toNat = 0 then 0
      else if 2 ^ 64 < s.ictr.toNat + (s.len.toNat + 15) / 16 then 2
      else 0

/-- R33: OUTLEN after PROCESS is the number of bytes stored (LEN on success, 16i when block i is the first whose
counter overflows, else 0); no other command, no illegal word's completion and no host access changes it. Reset,
which sets it to 0 (R46), is the one thing beside PROCESS that writes it. -/
def Obligations.OutlenCountsStoredBytes : Prop :=
  (∀ s t : State, exec .process s = .next t → t.outlen.toNat = storedBytes s) ∧
    (∀ (i : Instr) (s t : State), i ≠ .process → exec i s = .next t → t.outlen = s.outlen) ∧
    (∀ s t : State, (∀ i, s.op ≠ encode i) → completion s = .next t → t.outlen = s.outlen) ∧
    ∀ (a : Access) (s : State), (hostAccess a s).outlen = s.outlen

/-- What PROCESS leaves unchanged (R152, R70): DOUT outside the stored bytes, and every register it does not use. -/
def Obligations.ProcessFrame : Prop :=
  ∀ s t : State, exec .process s = .next t →
    OperandsKept s t ∧ t.blkOut = s.blkOut ∧ t.cb = s.cb ∧ ∀ a, storedBytes s ≤ a → doutByte t a = doutByte s a

/-- R157: processing the output again gives the input back. -/
def Obligations.ProcessIsInvolution : Prop :=
  ∀ s t u : State, exec .process s = .next t → t.status.err = 0 →
    u.key = s.key → u.keylen = s.keylen → u.ictr = s.ictr → u.len = s.len → u.params = s.params →
    (∀ a, a < s.len.toNat → dinByte u a = doutByte t a) →
    ∃ v, exec .process u = .next v ∧ v.status.err = 0 ∧ v.outlen = s.len ∧
      ∀ a, a < s.len.toNat → doutByte v a = dinByte s a

/-- R158: a message split after `m` whole blocks, the second part with its counter advanced by `m`. -/
def Obligations.ProcessSplitsAtBlocks : Prop :=
  ∀ (s t u v : State) (m : Nat), exec .process s = .next t → t.status.err = 0 → 16 * m ≤ s.len.toNat →
    u.key = s.key → u.keylen = s.keylen → u.params = s.params → u.ictr = s.ictr → u.len.toNat = 16 * m →
    (∀ a, a < 16 * m → dinByte u a = dinByte s a) →
    v.key = s.key → v.keylen = s.keylen → v.params = s.params → v.ictr.toNat = s.ictr.toNat + m →
    v.len.toNat = s.len.toNat - 16 * m →
    (∀ a, a < s.len.toNat - 16 * m → dinByte v a = dinByte s (16 * m + a)) →
    ∃ u' v', exec .process u = .next u' ∧ u'.status.err = 0 ∧ exec .process v = .next v' ∧ v'.status.err = 0 ∧
      (∀ a, a < 16 * m → doutByte t a = doutByte u' a) ∧
      ∀ a, a < s.len.toNat - 16 * m → doutByte t (16 * m + a) = doutByte v' a

/-- R159: the blocks below the first failing index written in any order give the same DOUT. -/
def Obligations.BlockOrderIsImmaterial : Prop :=
  ∀ (s t : State) (order : List Nat), s.keylen = 16 → s.len.toNat ≤ s.params.bufcap →
    order.Perm (List.range (min ((s.len.toNat + 15) / 16) (2 ^ 64 - s.ictr.toNat))) → exec .process s = .next t →
    ∀ a, doutByte t a = doutByte { s with dout := order.foldl (fun m i => Memory.write m (16 * i)
      (blockOutput s i (cipher (roundKeys s.key) (counterLayout (s.ictr.toNat + i))))) s.dout } a

/-- R32: with other bytes in DIN at LEN and above, PROCESS does the same. -/
def Obligations.ProcessIgnoresDataBeyondLen : Prop :=
  ∀ (s t : State) (d : Memory), (∀ a, a < s.len.toNat → dinByte { s with din := d } a = dinByte s a) →
    exec .process s = .next t → exec .process { s with din := d } = .next { t with din := d }

/-! ### The host bus -/

/-- R63, R61, R69: a read returns its bytes in little-endian lanes and changes nothing of the core. -/
def Obligations.HostReadReturnsBytes : Prop :=
  ∀ (s : State) (win : Win) (off n : Nat) (rest : List Event), accessTaken s.params.bufcap win off n = true →
    ∃ v : BitVec 64,
      stepWith s (.access (.read win off n)) rest = .next
        { s with agenda := rest, replies := .data n v :: s.replies, draws := s.draws + 1 } ∧
      v.toNat < 2 ^ (8 * n) ∧
      ∀ k, k < n → v.extractLsb' (8 * k) 8 = readByte (Config.freeByte s.draws k) s win (off + k)

/-- R26 as reads see it (R63): what stands at each offset of REG, DIN and DOUT. The first five clauses hold whatever
BUSY is: the operand registers, DIN, CMD and the reserved offsets. STATUS and the output locations follow for
BUSY = 0, RK for RKVALID = 1. -/
def Obligations.RegisterMapReads : Prop :=
  ∀ (s : State) (free : Byte),
    (∀ k, k < 4 → readByte free s .reg (0x000 + k) = 0 ∧
      readByte free s .reg (0x008 + k) = s.keylen.extractLsb' (8 * k) 8) ∧
    (∀ k, k < 8 → readByte free s .reg (0x010 + k) = s.ictr.extractLsb' (8 * k) 8 ∧
      readByte free s .reg (0x018 + k) = s.blkidx.extractLsb' (8 * k) 8 ∧
      readByte free s .reg (0x020 + k) = s.len.extractLsb' (8 * k) 8) ∧
    (∀ k (h : k < 16), readByte free s .reg (0x040 + k) = s.key[k] ∧
      readByte free s .reg (0x050 + k) = s.blkIn[k]) ∧
    (∀ a, (0x00C ≤ a ∧ a < 0x010) ∨ (0x030 ≤ a ∧ a < 0x040) ∨ (0x080 ≤ a ∧ a < 0x100) ∨
      (0x1B0 ≤ a ∧ a < 0x200) → readByte free s .reg a = 0) ∧
    (∀ a, readByte free s .din a = dinByte s a) ∧
    (s.status.busy = false →
      (∀ k, k < 4 → readByte free s .reg (0x004 + k) = (statusWord s.status).extractLsb' (8 * k) 8) ∧
      (∀ k, k < 8 → readByte free s .reg (0x028 + k) = s.outlen.extractLsb' (8 * k) 8) ∧
      (∀ k (h : k < 16), readByte free s .reg (0x060 + k) = s.blkOut[k] ∧
        readByte free s .reg (0x070 + k) = s.cb[k]) ∧
      (s.status.rkvalid = true → ∀ k (h : k < 176), readByte free s .reg (0x100 + k) = s.rk[k]) ∧
      ∀ a, readByte free s .dout a = doutByte s a)

/-- R63, R38, R197: the locations whose value is unspecified, output locations while BUSY is 1 and RK while
RKVALID is 0, give the free byte of the read. -/
def Obligations.UnspecifiedReadsAreFree : Prop :=
  ∀ (s : State) (free : Byte),
    (s.status.busy = true →
      (∀ k, k < 8 → readByte free s .reg (0x028 + k) = free) ∧
      (∀ k, k < 16 → readByte free s .reg (0x060 + k) = free ∧ readByte free s .reg (0x070 + k) = free) ∧
      (∀ a, readByte free s .dout a = free) ∧
      readByte free s .reg 0x004 = (if free.getLsbD 2 then 0x05 else 0x01) ∧
      ∀ k, 1 ≤ k → k < 4 → readByte free s .reg (0x004 + k) = 0) ∧
    (s.status.busy = true ∨ s.status.rkvalid = false → ∀ k, k < 176 → readByte free s .reg (0x100 + k) = free)

/-- R64: a write while BUSY is 0 that does not cover CMD stores its bytes where the host may write, and changes
nothing else. -/
def Obligations.HostWriteStoresBytes : Prop :=
  ∀ (s : State) (win : Win) (off n : Nat) (v : BitVec 64) (rest : List Event), s.status.busy = false →
    accessTaken s.params.bufcap win off n = true → ¬(win = .reg ∧ off = 0) →
    ∃ t, stepWith s (.access (.write win off n v)) rest = .next t ∧
      (∀ free k, k < n → hostWritable win (off + k) →
        readByte free t win (off + k) = v.extractLsb' (8 * k) 8) ∧
      (∀ free w a, ¬(w = win ∧ off ≤ a ∧ a < off + n ∧ hostWritable w a) →
        readByte free t w a = readByte free s w a) ∧
      t = { s with keylen := t.keylen, ictr := t.ictr, blkidx := t.blkidx, len := t.len, key := t.key,
                   blkIn := t.blkIn, din := t.din, agenda := rest, replies := .ack :: s.replies }

/-- R65: a write while BUSY is 0 that covers offset 0x000 of REG issues a command and changes nothing else; no
other write issues one. -/
def Obligations.WriteToCmdIssues : Prop :=
  ∀ (s : State) (win : Win) (off n : Nat) (v : BitVec 64) (rest : List Event), s.status.busy = false →
    accessTaken s.params.bufcap win off n = true →
    ∃ t, stepWith s (.access (.write win off n v)) rest = .next t ∧
      (win = .reg ∧ off = 0 →
        (∀ k, k < 4 → t.op.extractLsb' (8 * k) 8 = if k < n then v.extractLsb' (8 * k) 8 else 0) ∧
        t = { s with op := t.op, agenda := rest, replies := .ack :: s.replies,
                     status := { busy := true, done := false, rkvalid := s.status.rkvalid, err := 0 } }) ∧
      (¬(win = .reg ∧ off = 0) → t.op = s.op ∧ t.status = s.status)

/-- R96, R64: while BUSY is 1 every host write is dropped, one to CMD too. -/
def Obligations.WritesWhileBusyDropped : Prop :=
  ∀ (s : State) (win : Win) (off n : Nat) (v : BitVec 64) (rest : List Event), s.status.busy = true →
    accessTaken s.params.bufcap win off n = true →
    stepWith s (.access (.write win off n v)) rest = .next
      { s with agenda := rest, replies := .ack :: s.replies }

/-- R66, R67, R68: an access of another width, misaligned or outside its window gets the error response and
changes nothing of the core. That a refused access has this meaning in the model is log entry 7. -/
def Obligations.RefusedAccessChangesNothing : Prop :=
  ∀ (s : State) (win : Win) (off n : Nat) (v : BitVec 64) (rest : List Event),
    (n ∉ [1, 2, 4, 8] ∨ off % n ≠ 0 ∨ win.size s.params.bufcap < off + n) →
    (∃ x, stepWith s (.access (.read win off n)) rest = .next
      { s with agenda := rest, replies := .readError x :: s.replies, draws := s.draws + 1 }) ∧
    stepWith s (.access (.write win off n v)) rest = .next
      { s with agenda := rest, replies := .writeError :: s.replies }

/-- R28: the bits of STATUS. -/
def Obligations.StatusWordBits : Prop :=
  ∀ st : Status, (statusWord st).getLsbD 0 = st.busy ∧ (statusWord st).getLsbD 1 = st.done ∧
    (statusWord st).getLsbD 2 = st.rkvalid ∧ (statusWord st).extractLsb' 8 8 = st.err ∧
    ∀ k, (3 ≤ k ∧ k < 8) ∨ (16 ≤ k ∧ k < 32) → (statusWord st).getLsbD k = false

/-! ### Reset -/

/-- R46: the values the spec gives for reset. Nothing is said of RK, DIN, DOUT and OP. -/
def Obligations.ResetValues : Prop :=
  let s := State.reset
  s.status = { busy := false, done := false, rkvalid := false, err := 0 } ∧ s.keylen = 0 ∧ s.ictr = 0 ∧
    s.blkidx = 0 ∧ s.len = 0 ∧ s.outlen = 0 ∧
    ∀ k, k < 16 → byteAt s.key k = 0 ∧ byteAt s.blkIn k = 0 ∧ byteAt s.blkOut k = 0 ∧ byteAt s.cb k = 0

/-- R191, R192: RST gives those values from every state, and abandons a pending operation. That the agenda, the bus
answers and the parameters stay is the model's choice (log entry 11). -/
def Obligations.ResetInputClearsState : Prop :=
  ∀ (s : State) (rest : List Event), ∃ t, stepWith s .rst rest = .next t ∧
    t.status = { busy := false, done := false, rkvalid := false, err := 0 } ∧ t.keylen = 0 ∧ t.ictr = 0 ∧
    t.blkidx = 0 ∧ t.len = 0 ∧ t.outlen = 0 ∧
    (∀ k, k < 16 → byteAt t.key k = 0 ∧ byteAt t.blkIn k = 0 ∧ byteAt t.blkOut k = 0 ∧ byteAt t.cb k = 0) ∧
    t.params = s.params ∧ t.agenda = rest ∧ t.replies = s.replies

/-! ### Invariants and whole-machine rules -/

/-- Every step keeps a legal state legal (R28, R166, R13, R27, R40). -/
def Obligations.StepKeepsLegal : Prop :=
  ∀ s t : State, Legal s → step s = .next t → Legal t

/-- Every step keeps the meaning of RKVALID (R28, R38). -/
def Obligations.StepKeepsScheduleLegal : Prop :=
  ∀ s t : State, ScheduleLegal s → step s = .next t → ScheduleLegal t

/-- Both invariants hold after reset. -/
def Obligations.ResetIsLegal : Prop :=
  Legal State.reset ∧ ScheduleLegal State.reset

/-- R20: the parameters never change. -/
def Obligations.ParametersNeverChange : Prop :=
  ∀ s t : State, step s = .next t → t.params = s.params

/-- R38, R45: a step that changes RK or RKVALID took a reset, or was the turn of the sequencer that completed a
pending EXPAND or PROCESS. -/
def Obligations.OnlyExpansionChangesSchedule : Prop :=
  ∀ s t : State, step s = .next t → (t.rk ≠ s.rk ∨ t.status.rkvalid ≠ s.status.rkvalid) →
    (∃ rest, s.agenda = .rst :: rest) ∨
      ((s.agenda = [] ∨ ∃ rest, s.agenda = .sequencer :: rest) ∧ s.status.busy = true ∧
        (s.op = encode .expand ∨ s.op = encode .process) ∧ t.status.busy = false ∧ t.status.done = true)
end

