-- ==== Sys2Proof/Laws/Bytes.lean ====
section
/-! SUPPORT. Byte arrays, byte lanes of scalars, and the register map, each read back after it is written. -/

namespace Sys2Proof.Machine

/-! ### Byte arrays -/

theorem byteAt_tabulate (n : Nat) (f : Nat → Byte) (k : Nat) :
    byteAt (tabulate n f) k = if k < n then f k else 0 := by
  by_cases h : k < n
  · simp [byteAt, tabulate, h]
  · simp [byteAt, tabulate, h]

@[simp] theorem byteAt_tabulate_lt {n : Nat} {f : Nat → Byte} {k : Nat} (h : k < n) :
    byteAt (tabulate n f) k = f k := by rw [byteAt_tabulate, if_pos h]

theorem byteAt_lt {n : Nat} (v : Bytes n) {k : Nat} (h : k < n) : byteAt v k = v[k] := by
  simp [byteAt, h]

theorem byteAt_ge {n : Nat} (v : Bytes n) {k : Nat} (h : n ≤ k) : byteAt v k = 0 := by
  simp [byteAt, Nat.not_lt.mpr h]

/-- Two byte arrays with the same elements are the same. -/
theorem bytes_ext {n : Nat} {u v : Bytes n} (h : ∀ k, k < n → byteAt u k = byteAt v k) : u = v := by
  ext1 k hk
  simpa [byteAt_lt, hk] using h k hk

theorem byteAt_setByteAt {n : Nat} (v : Bytes n) (k : Nat) (b : Byte) {j : Nat} (h : j < n) :
    byteAt (setByteAt v k b) j = if j = k then b else byteAt v j := by
  simp [setByteAt, h]

/-! ### Byte lanes -/

theorem getLsbD_lane {w : Nat} (v : BitVec w) (k i : Nat) :
    (lane v k).getLsbD i = (decide (i < 8) && v.getLsbD (8 * k + i)) := by
  simp [lane, BitVec.getLsbD_extractLsb']

/-- Setting one lane of a scalar and reading a lane that lies inside it. -/
theorem lane_setLane {w : Nat} (v : BitVec w) (k : Nat) (b : Byte) {j : Nat} (h : 8 * j + 8 ≤ w) :
    lane (setLane v k b) j = if j = k then b else lane v j := by
  have ff : ∀ n, (0xFF : BitVec w).getLsbD n = (decide (n < w) && decide (n < 8)) := by
    intro n
    have h255 : Nat.testBit 255 n = decide (n < 8) := by
      simpa using Nat.testBit_two_pow_sub_one 8 n
    have e : (0xFF : BitVec w) = BitVec.ofNat w 255 := rfl
    rw [e, BitVec.getLsbD_ofNat, h255]
  ext i hi
  have e : (lane (setLane v k b) j)[i] = (lane (setLane v k b) j).getLsbD i := by
    simp [BitVec.getLsbD_eq_getElem hi]
  have e' : (if j = k then b else lane v j)[i] = (if j = k then b else lane v j).getLsbD i := by
    simp [BitVec.getLsbD_eq_getElem hi]
  rw [e, e', getLsbD_lane]
  have hw : 8 * j + i < w := by omega
  simp only [setLane, BitVec.getLsbD_or, BitVec.getLsbD_and, BitVec.getLsbD_not, BitVec.getLsbD_shiftLeft, ff,
    BitVec.getLsbD_setWidth, hw, hi, decide_true, Bool.true_and]
  by_cases hjk : j = k
  · subst hjk
    have h1 : 8 * j + i - 8 * j = i := by omega
    have h2 : i < w := by omega
    simp [hi, h1, h2]
  · rw [if_neg hjk, getLsbD_lane]
    rcases Nat.lt_or_gt_of_ne hjk with hlt | hgt
    · have : 8 * j + i < 8 * k := by omega
      simp [this, hi]
    · have h1 : ¬ 8 * j + i < 8 * k := by omega
      have h2 : ¬ 8 * j + i - 8 * k < 8 := by omega
      have h3 : b.getLsbD (8 * j + i - 8 * k) = false := BitVec.getLsbD_of_ge _ _ (by omega)
      simp [h1, h2, h3, hi]

theorem getLsbD_ofLanes (w : Nat) (f : Nat → Byte) (n i : Nat) (h : 8 * n ≤ w) :
    (ofLanes w f n).getLsbD i = (decide (i < 8 * n) && (f (i / 8)).getLsbD (i % 8)) := by
  induction n with
  | zero => simp [ofLanes]
  | succ n ih =>
    simp only [ofLanes, BitVec.getLsbD_or, ih (by omega), BitVec.getLsbD_shiftLeft, BitVec.getLsbD_setWidth]
    by_cases h1 : i < 8 * n
    · have : i < 8 * (n + 1) := by omega
      simp [h1, this]
    · by_cases h2 : i < 8 * (n + 1)
      · have hd : i / 8 = n := by omega
        have hm : i - 8 * n = i % 8 := by omega
        have h3 : i < w := by omega
        have h4 : i % 8 < w := by omega
        simp [h1, h2, hd, hm, h3, h4]
      · have : (f n).getLsbD (i - 8 * n) = false := BitVec.getLsbD_of_ge _ _ (by omega)
        simp [h1, h2, this]

/-- A scalar built from lanes gives each of them back. -/
theorem lane_ofLanes {w : Nat} (f : Nat → Byte) {n k : Nat} (h : 8 * n ≤ w) (hk : k < n) :
    lane (ofLanes w f n) k = f k := by
  ext i hi
  have e : (lane (ofLanes w f n) k)[i] = (lane (ofLanes w f n) k).getLsbD i := by
    simp [BitVec.getLsbD_eq_getElem hi]
  rw [e, getLsbD_lane, getLsbD_ofLanes _ _ _ _ h]
  have h1 : 8 * k + i < 8 * n := by omega
  have h2 : (8 * k + i) / 8 = k := by omega
  have h3 : (8 * k + i) % 8 = i := by omega
  simp [hi, h1, h2, h3]

/-- Above its last lane a scalar built from lanes is zero. -/
theorem ofLanes_lt {w : Nat} (f : Nat → Byte) {n : Nat} (h : 8 * n ≤ w) : (ofLanes w f n).toNat < 2 ^ (8 * n) := by
  apply Nat.lt_pow_two_of_testBit
  intro i hi
  have := getLsbD_ofLanes w f n i h
  rw [BitVec.getLsbD] at this
  simp [this, Nat.not_lt.mpr hi]

end Sys2Proof.Machine
end

