-- ==== Sys2Proof/Laws/Memory.lean ====
section
/-! SUPPORT. The data buffers: a byte read after it is written, every other byte as before, and the canonical form
kept by every operation. -/

namespace Sys2Proof.Machine

theorem Memory.get?_set (m : Memory) (a : Nat) (b : Byte) (x : Nat) :
    Memory.get? (Memory.set m a b) x = if x = a then some b else Memory.get? m x := by
  induction m with
  | nil => simp [Memory.set, Memory.get?]
  | cons c m ih =>
    unfold Memory.set
    split
    · simp [Memory.get?]
    · split
      · rename_i h; subst h
        by_cases hx : x = c.1 <;> simp [Memory.get?, hx]
      · rename_i h1 h2
        by_cases hx : x = c.1
        · have : c.1 ≠ a := fun e => h2 e.symm
          simp [Memory.get?, hx, this]
        · simp [Memory.get?, hx, ih]

/-- What `Memory.write` can do: the bytes of the list at their offsets, every other offset as before. -/
theorem Memory.get?_write (bs : List Byte) : ∀ (m : Memory) (a x : Nat),
    Memory.get? (Memory.write m a bs) x =
      if a ≤ x ∧ x < a + bs.length then bs[x - a]? else Memory.get? m x := by
  induction bs with
  | nil => intro m a x; simp only [Memory.write, List.length_nil, Nat.add_zero]; rw [if_neg]; omega
  | cons b bs ih =>
    intro m a x
    simp only [Memory.write, ih, Memory.get?_set, List.length_cons]
    by_cases h1 : a + 1 ≤ x ∧ x < a + 1 + bs.length
    · rw [if_pos h1, if_pos (by omega)]
      have : x - a = x - (a + 1) + 1 := by omega
      rw [this, List.getElem?_cons_succ]
    · rw [if_neg h1]
      by_cases h2 : x = a
      · subst h2; simp
      · rw [if_neg h2, if_neg]; omega

theorem Memory.mem_set {m : Memory} {a : Nat} {b : Byte} {c : Host.Cell} (h : c ∈ Memory.set m a b) :
    c = (a, b) ∨ c ∈ m := by
  induction m with
  | nil => simpa [Memory.set] using h
  | cons d m ih =>
    unfold Memory.set at h
    split at h
    · simpa using h
    · split at h
      · rcases List.mem_cons.mp h with h | h
        · exact .inl h
        · exact .inr (List.mem_cons_of_mem _ h)
      · rcases List.mem_cons.mp h with h | h
        · exact .inr (by simp [h])
        · exact (ih h).imp_right (List.mem_cons_of_mem _)

theorem Memory.set_wf {m : Memory} (h : Memory.wf m) (a : Nat) (b : Byte) : Memory.wf (Memory.set m a b) := by
  induction m with
  | nil => simp [Memory.set, Memory.wf]
  | cons d m ih =>
    have ⟨hd, hm⟩ := List.pairwise_cons.mp h
    unfold Memory.set
    split
    · rename_i hlt
      refine List.pairwise_cons.mpr ⟨fun c hc => ?_, h⟩
      rcases List.mem_cons.mp hc with rfl | hc
      · exact hlt
      · exact Nat.lt_trans hlt (hd c hc)
    · split
      · rename_i heq
        exact List.pairwise_cons.mpr ⟨fun c hc => by simpa [heq] using hd c hc, hm⟩
      · rename_i h1 h2
        refine List.pairwise_cons.mpr ⟨fun c hc => ?_, ih hm⟩
        rcases Memory.mem_set hc with rfl | hc
        · show d.1 < a; omega
        · exact hd c hc

theorem Memory.set_below {cap : Nat} {m : Memory} (h : Memory.below cap m) {a : Nat} (ha : a < cap) (b : Byte) :
    Memory.below cap (Memory.set m a b) := by
  intro c hc
  rcases Memory.mem_set hc with rfl | hc
  · exact ha
  · exact h c hc

theorem Memory.write_wf (bs : List Byte) : ∀ {m : Memory} (_ : Memory.wf m) (a : Nat), Memory.wf (Memory.write m a bs) := by
  induction bs with
  | nil => intro m h a; exact h
  | cons b bs ih => intro m h a; exact ih (Memory.set_wf h a b) (a + 1)

theorem Memory.write_below {cap : Nat} (bs : List Byte) : ∀ {m : Memory} (_ : Memory.below cap m) {a : Nat},
    a + bs.length ≤ cap → Memory.below cap (Memory.write m a bs) := by
  induction bs with
  | nil => intro m h a _; exact h
  | cons b bs ih =>
    intro m h a ha
    simp only [List.length_cons] at ha
    exact ih (Memory.set_below h (by omega) b) (by omega)

/-- Memory right after reset is in canonical form. -/
theorem reset_memory_wf : Memory.wf State.reset.din ∧ Memory.wf State.reset.dout := by
  simp [State.reset, Memory.wf]

end Sys2Proof.Machine
end

