-- ==== Sys2Proof/Laws/State.lean ====
section
/-! SUPPORT. What each update of the state does to each field, every lemma true by rfl: later proofs unfold no
record update. `finish`, `raise` and `illegalCommand` are read as `complete`. -/

namespace Sys2Proof.Machine

@[simp] theorem finish_eq (s : State) : finish s = complete 0 s := rfl
@[simp] theorem raise_eq (e : CmdError) (s : State) : raise e s = complete (errCode e) s := rfl
@[simp] theorem illegalCommand_eq (s : State) : illegalCommand s = complete 3 s := rfl

@[simp] theorem completedStatus_busy (c : BitVec 8) (st : Status) : (completedStatus c st).busy = false := rfl
@[simp] theorem completedStatus_done (c : BitVec 8) (st : Status) : (completedStatus c st).done = true := rfl
@[simp] theorem completedStatus_rkvalid (c : BitVec 8) (st : Status) : (completedStatus c st).rkvalid = st.rkvalid := rfl
@[simp] theorem completedStatus_err (c : BitVec 8) (st : Status) : (completedStatus c st).err = c := rfl
@[simp] theorem issuedStatus_busy (st : Status) : (issuedStatus st).busy = true := rfl
@[simp] theorem issuedStatus_done (st : Status) : (issuedStatus st).done = false := rfl
@[simp] theorem issuedStatus_rkvalid (st : Status) : (issuedStatus st).rkvalid = st.rkvalid := rfl
@[simp] theorem issuedStatus_err (st : Status) : (issuedStatus st).err = 0 := rfl


@[simp] theorem issue_key (cw : BitVec 32) (s : State) : (issue cw s).key = s.key := rfl
@[simp] theorem issue_keylen (cw : BitVec 32) (s : State) : (issue cw s).keylen = s.keylen := rfl
@[simp] theorem issue_ictr (cw : BitVec 32) (s : State) : (issue cw s).ictr = s.ictr := rfl
@[simp] theorem issue_blkidx (cw : BitVec 32) (s : State) : (issue cw s).blkidx = s.blkidx := rfl
@[simp] theorem issue_len (cw : BitVec 32) (s : State) : (issue cw s).len = s.len := rfl
@[simp] theorem issue_outlen (cw : BitVec 32) (s : State) : (issue cw s).outlen = s.outlen := rfl
@[simp] theorem issue_blkIn (cw : BitVec 32) (s : State) : (issue cw s).blkIn = s.blkIn := rfl
@[simp] theorem issue_blkOut (cw : BitVec 32) (s : State) : (issue cw s).blkOut = s.blkOut := rfl
@[simp] theorem issue_cb (cw : BitVec 32) (s : State) : (issue cw s).cb = s.cb := rfl
@[simp] theorem issue_rk (cw : BitVec 32) (s : State) : (issue cw s).rk = s.rk := rfl
@[simp] theorem issue_din (cw : BitVec 32) (s : State) : (issue cw s).din = s.din := rfl
@[simp] theorem issue_dout (cw : BitVec 32) (s : State) : (issue cw s).dout = s.dout := rfl
@[simp] theorem issue_status (cw : BitVec 32) (s : State) : (issue cw s).status = issuedStatus s.status := rfl
@[simp] theorem issue_op (cw : BitVec 32) (s : State) : (issue cw s).op = cw := rfl
@[simp] theorem issue_params (cw : BitVec 32) (s : State) : (issue cw s).params = s.params := rfl
@[simp] theorem issue_agenda (cw : BitVec 32) (s : State) : (issue cw s).agenda = s.agenda := rfl
@[simp] theorem issue_replies (cw : BitVec 32) (s : State) : (issue cw s).replies = s.replies := rfl
@[simp] theorem issue_draws (cw : BitVec 32) (s : State) : (issue cw s).draws = s.draws := rfl
@[simp] theorem issue_epoch (cw : BitVec 32) (s : State) : (issue cw s).epoch = s.epoch := rfl

@[simp] theorem complete_key (code : BitVec 8) (s : State) : (complete code s).key = s.key := rfl
@[simp] theorem complete_keylen (code : BitVec 8) (s : State) : (complete code s).keylen = s.keylen := rfl
@[simp] theorem complete_ictr (code : BitVec 8) (s : State) : (complete code s).ictr = s.ictr := rfl
@[simp] theorem complete_blkidx (code : BitVec 8) (s : State) : (complete code s).blkidx = s.blkidx := rfl
@[simp] theorem complete_len (code : BitVec 8) (s : State) : (complete code s).len = s.len := rfl
@[simp] theorem complete_outlen (code : BitVec 8) (s : State) : (complete code s).outlen = s.outlen := rfl
@[simp] theorem complete_blkIn (code : BitVec 8) (s : State) : (complete code s).blkIn = s.blkIn := rfl
@[simp] theorem complete_blkOut (code : BitVec 8) (s : State) : (complete code s).blkOut = s.blkOut := rfl
@[simp] theorem complete_cb (code : BitVec 8) (s : State) : (complete code s).cb = s.cb := rfl
@[simp] theorem complete_rk (code : BitVec 8) (s : State) : (complete code s).rk = s.rk := rfl
@[simp] theorem complete_din (code : BitVec 8) (s : State) : (complete code s).din = s.din := rfl
@[simp] theorem complete_dout (code : BitVec 8) (s : State) : (complete code s).dout = s.dout := rfl
@[simp] theorem complete_status (code : BitVec 8) (s : State) : (complete code s).status = completedStatus code s.status := rfl
@[simp] theorem complete_op (code : BitVec 8) (s : State) : (complete code s).op = s.op := rfl
@[simp] theorem complete_params (code : BitVec 8) (s : State) : (complete code s).params = s.params := rfl
@[simp] theorem complete_agenda (code : BitVec 8) (s : State) : (complete code s).agenda = s.agenda := rfl
@[simp] theorem complete_replies (code : BitVec 8) (s : State) : (complete code s).replies = s.replies := rfl
@[simp] theorem complete_draws (code : BitVec 8) (s : State) : (complete code s).draws = s.draws := rfl
@[simp] theorem complete_epoch (code : BitVec 8) (s : State) : (complete code s).epoch = s.epoch := rfl

@[simp] theorem installSchedule_key (rk : Bytes 176) (s : State) : (installSchedule rk s).key = s.key := rfl
@[simp] theorem installSchedule_keylen (rk : Bytes 176) (s : State) : (installSchedule rk s).keylen = s.keylen := rfl
@[simp] theorem installSchedule_ictr (rk : Bytes 176) (s : State) : (installSchedule rk s).ictr = s.ictr := rfl
@[simp] theorem installSchedule_blkidx (rk : Bytes 176) (s : State) : (installSchedule rk s).blkidx = s.blkidx := rfl
@[simp] theorem installSchedule_len (rk : Bytes 176) (s : State) : (installSchedule rk s).len = s.len := rfl
@[simp] theorem installSchedule_outlen (rk : Bytes 176) (s : State) : (installSchedule rk s).outlen = s.outlen := rfl
@[simp] theorem installSchedule_blkIn (rk : Bytes 176) (s : State) : (installSchedule rk s).blkIn = s.blkIn := rfl
@[simp] theorem installSchedule_blkOut (rk : Bytes 176) (s : State) : (installSchedule rk s).blkOut = s.blkOut := rfl
@[simp] theorem installSchedule_cb (rk : Bytes 176) (s : State) : (installSchedule rk s).cb = s.cb := rfl
@[simp] theorem installSchedule_rk (rk : Bytes 176) (s : State) : (installSchedule rk s).rk = rk := rfl
@[simp] theorem installSchedule_din (rk : Bytes 176) (s : State) : (installSchedule rk s).din = s.din := rfl
@[simp] theorem installSchedule_dout (rk : Bytes 176) (s : State) : (installSchedule rk s).dout = s.dout := rfl
@[simp] theorem installSchedule_status (rk : Bytes 176) (s : State) : (installSchedule rk s).status = { s.status with rkvalid := true } := rfl
@[simp] theorem installSchedule_op (rk : Bytes 176) (s : State) : (installSchedule rk s).op = s.op := rfl
@[simp] theorem installSchedule_params (rk : Bytes 176) (s : State) : (installSchedule rk s).params = s.params := rfl
@[simp] theorem installSchedule_agenda (rk : Bytes 176) (s : State) : (installSchedule rk s).agenda = s.agenda := rfl
@[simp] theorem installSchedule_replies (rk : Bytes 176) (s : State) : (installSchedule rk s).replies = s.replies := rfl
@[simp] theorem installSchedule_draws (rk : Bytes 176) (s : State) : (installSchedule rk s).draws = s.draws := rfl
@[simp] theorem installSchedule_epoch (rk : Bytes 176) (s : State) : (installSchedule rk s).epoch = s.epoch := rfl

@[simp] theorem dropSchedule_key (s : State) : (dropSchedule s).key = s.key := rfl
@[simp] theorem dropSchedule_keylen (s : State) : (dropSchedule s).keylen = s.keylen := rfl
@[simp] theorem dropSchedule_ictr (s : State) : (dropSchedule s).ictr = s.ictr := rfl
@[simp] theorem dropSchedule_blkidx (s : State) : (dropSchedule s).blkidx = s.blkidx := rfl
@[simp] theorem dropSchedule_len (s : State) : (dropSchedule s).len = s.len := rfl
@[simp] theorem dropSchedule_outlen (s : State) : (dropSchedule s).outlen = s.outlen := rfl
@[simp] theorem dropSchedule_blkIn (s : State) : (dropSchedule s).blkIn = s.blkIn := rfl
@[simp] theorem dropSchedule_blkOut (s : State) : (dropSchedule s).blkOut = s.blkOut := rfl
@[simp] theorem dropSchedule_cb (s : State) : (dropSchedule s).cb = s.cb := rfl
@[simp] theorem dropSchedule_rk (s : State) : (dropSchedule s).rk = tabulate 176 (Config.freeByte s.draws) := rfl
@[simp] theorem dropSchedule_din (s : State) : (dropSchedule s).din = s.din := rfl
@[simp] theorem dropSchedule_dout (s : State) : (dropSchedule s).dout = s.dout := rfl
@[simp] theorem dropSchedule_status (s : State) : (dropSchedule s).status = { s.status with rkvalid := false } := rfl
@[simp] theorem dropSchedule_op (s : State) : (dropSchedule s).op = s.op := rfl
@[simp] theorem dropSchedule_params (s : State) : (dropSchedule s).params = s.params := rfl
@[simp] theorem dropSchedule_agenda (s : State) : (dropSchedule s).agenda = s.agenda := rfl
@[simp] theorem dropSchedule_replies (s : State) : (dropSchedule s).replies = s.replies := rfl
@[simp] theorem dropSchedule_draws (s : State) : (dropSchedule s).draws = s.draws + 1 := rfl
@[simp] theorem dropSchedule_epoch (s : State) : (dropSchedule s).epoch = s.epoch := rfl

@[simp] theorem reply_key (r : Reply) (s : State) : (reply r s).key = s.key := rfl
@[simp] theorem reply_keylen (r : Reply) (s : State) : (reply r s).keylen = s.keylen := rfl
@[simp] theorem reply_ictr (r : Reply) (s : State) : (reply r s).ictr = s.ictr := rfl
@[simp] theorem reply_blkidx (r : Reply) (s : State) : (reply r s).blkidx = s.blkidx := rfl
@[simp] theorem reply_len (r : Reply) (s : State) : (reply r s).len = s.len := rfl
@[simp] theorem reply_outlen (r : Reply) (s : State) : (reply r s).outlen = s.outlen := rfl
@[simp] theorem reply_blkIn (r : Reply) (s : State) : (reply r s).blkIn = s.blkIn := rfl
@[simp] theorem reply_blkOut (r : Reply) (s : State) : (reply r s).blkOut = s.blkOut := rfl
@[simp] theorem reply_cb (r : Reply) (s : State) : (reply r s).cb = s.cb := rfl
@[simp] theorem reply_rk (r : Reply) (s : State) : (reply r s).rk = s.rk := rfl
@[simp] theorem reply_din (r : Reply) (s : State) : (reply r s).din = s.din := rfl
@[simp] theorem reply_dout (r : Reply) (s : State) : (reply r s).dout = s.dout := rfl
@[simp] theorem reply_status (r : Reply) (s : State) : (reply r s).status = s.status := rfl
@[simp] theorem reply_op (r : Reply) (s : State) : (reply r s).op = s.op := rfl
@[simp] theorem reply_params (r : Reply) (s : State) : (reply r s).params = s.params := rfl
@[simp] theorem reply_agenda (r : Reply) (s : State) : (reply r s).agenda = s.agenda := rfl
@[simp] theorem reply_replies (r : Reply) (s : State) : (reply r s).replies = r :: s.replies := rfl
@[simp] theorem reply_draws (r : Reply) (s : State) : (reply r s).draws = s.draws := rfl
@[simp] theorem reply_epoch (r : Reply) (s : State) : (reply r s).epoch = s.epoch := rfl

@[simp] theorem processBlock_key (i : Nat) (ks : Bytes 16) (s : State) : (processBlock i ks s).key = s.key := rfl
@[simp] theorem processBlock_keylen (i : Nat) (ks : Bytes 16) (s : State) : (processBlock i ks s).keylen = s.keylen := rfl
@[simp] theorem processBlock_ictr (i : Nat) (ks : Bytes 16) (s : State) : (processBlock i ks s).ictr = s.ictr := rfl
@[simp] theorem processBlock_blkidx (i : Nat) (ks : Bytes 16) (s : State) : (processBlock i ks s).blkidx = s.blkidx := rfl
@[simp] theorem processBlock_len (i : Nat) (ks : Bytes 16) (s : State) : (processBlock i ks s).len = s.len := rfl
@[simp] theorem processBlock_outlen (i : Nat) (ks : Bytes 16) (s : State) : (processBlock i ks s).outlen = s.outlen := rfl
@[simp] theorem processBlock_blkIn (i : Nat) (ks : Bytes 16) (s : State) : (processBlock i ks s).blkIn = s.blkIn := rfl
@[simp] theorem processBlock_blkOut (i : Nat) (ks : Bytes 16) (s : State) : (processBlock i ks s).blkOut = s.blkOut := rfl
@[simp] theorem processBlock_cb (i : Nat) (ks : Bytes 16) (s : State) : (processBlock i ks s).cb = s.cb := rfl
@[simp] theorem processBlock_rk (i : Nat) (ks : Bytes 16) (s : State) : (processBlock i ks s).rk = s.rk := rfl
@[simp] theorem processBlock_din (i : Nat) (ks : Bytes 16) (s : State) : (processBlock i ks s).din = s.din := rfl
@[simp] theorem processBlock_dout (i : Nat) (ks : Bytes 16) (s : State) : (processBlock i ks s).dout = Memory.write s.dout (16 * i) (blockOutput s i ks) := rfl
@[simp] theorem processBlock_status (i : Nat) (ks : Bytes 16) (s : State) : (processBlock i ks s).status = s.status := rfl
@[simp] theorem processBlock_op (i : Nat) (ks : Bytes 16) (s : State) : (processBlock i ks s).op = s.op := rfl
@[simp] theorem processBlock_params (i : Nat) (ks : Bytes 16) (s : State) : (processBlock i ks s).params = s.params := rfl
@[simp] theorem processBlock_agenda (i : Nat) (ks : Bytes 16) (s : State) : (processBlock i ks s).agenda = s.agenda := rfl
@[simp] theorem processBlock_replies (i : Nat) (ks : Bytes 16) (s : State) : (processBlock i ks s).replies = s.replies := rfl
@[simp] theorem processBlock_draws (i : Nat) (ks : Bytes 16) (s : State) : (processBlock i ks s).draws = s.draws := rfl
@[simp] theorem processBlock_epoch (i : Nat) (ks : Bytes 16) (s : State) : (processBlock i ks s).epoch = s.epoch := rfl

end Sys2Proof.Machine
end

