-- ==== Sys2Proof/Laws/Bus.lean ====
section
/-! SUPPORT. The host bus: which fields a host write can touch, and what every location reads after it. -/

namespace Sys2Proof.Machine

open Sys2Proof.Safety

/-- The number of bytes of a register that stand in the map as one range (R26). -/
def locSize : Loc → Nat
  | .cmd => 4
  | .status => 4
  | .keylen => 4
  | .ictr => 8
  | .blkidx => 8
  | .len => 8
  | .outlen => 8
  | .key => 16
  | .blkIn => 16
  | .blkOut => 16
  | .cb => 16
  | .rk => 176
  | .reserved => 0

/-- The offset at which a register stands (R26); reserved ranges have none of their own. -/
def locBase : Loc → Nat
  | .cmd => 0x000
  | .status => 0x004
  | .keylen => 0x008
  | .ictr => 0x010
  | .blkidx => 0x018
  | .len => 0x020
  | .outlen => 0x028
  | .key => 0x040
  | .blkIn => 0x050
  | .blkOut => 0x060
  | .cb => 0x070
  | .rk => 0x100
  | .reserved => 0

/-- The registers a host write stores to (R64). -/
def locWritable : Loc → Bool
  | .cmd => false
  | .status => false
  | .keylen => true
  | .ictr => true
  | .blkidx => true
  | .len => true
  | .outlen => false
  | .key => true
  | .blkIn => true
  | .blkOut => false
  | .cb => false
  | .rk => false
  | .reserved => false

/-- What holds of both branches holds of a choice. -/
theorem ite_ind {α : Type} (P : α → Prop) {c : Prop} [Decidable c] {x y : α} (hx : c → P x) (hy : ¬c → P y) :
    P (if c then x else y) := by
  by_cases h : c
  · rw [if_pos h]; exact hx h
  · rw [if_neg h]; exact hy h

/-- The register map, range by range (R26): what holds of each range's entry holds of the entry of every offset. -/
theorem regMap_ranges (P : Loc × Nat → Prop) (a : Nat)
    (cmd : a < 0x004 → P (.cmd, a))
    (status : 0x004 ≤ a → a < 0x008 → P (.status, a - 0x004))
    (keylen : 0x008 ≤ a → a < 0x00C → P (.keylen, a - 0x008))
    (reserved1 : 0x00C ≤ a → a < 0x010 → P (.reserved, a - 0x00C))
    (ictr : 0x010 ≤ a → a < 0x018 → P (.ictr, a - 0x010))
    (blkidx : 0x018 ≤ a → a < 0x020 → P (.blkidx, a - 0x018))
    (len : 0x020 ≤ a → a < 0x028 → P (.len, a - 0x020))
    (outlen : 0x028 ≤ a → a < 0x030 → P (.outlen, a - 0x028))
    (reserved2 : 0x030 ≤ a → a < 0x040 → P (.reserved, a - 0x030))
    (key : 0x040 ≤ a → a < 0x050 → P (.key, a - 0x040))
    (blkIn : 0x050 ≤ a → a < 0x060 → P (.blkIn, a - 0x050))
    (blkOut : 0x060 ≤ a → a < 0x070 → P (.blkOut, a - 0x060))
    (cb : 0x070 ≤ a → a < 0x080 → P (.cb, a - 0x070))
    (reserved3 : 0x080 ≤ a → a < 0x100 → P (.reserved, a - 0x080))
    (rk : 0x100 ≤ a → a < 0x1B0 → P (.rk, a - 0x100))
    (reserved4 : 0x1B0 ≤ a → P (.reserved, a - 0x1B0)) : P (regMap a) := by
  unfold regMap
  refine ite_ind P cmd fun h1 => ite_ind P (status (by omega)) fun h2 => ite_ind P (keylen (by omega)) fun h3 =>
    ite_ind P (reserved1 (by omega)) fun h4 => ite_ind P (ictr (by omega)) fun h5 => ite_ind P (blkidx (by omega)) fun h6 =>
    ite_ind P (len (by omega)) fun h7 => ite_ind P (outlen (by omega)) fun h8 => ite_ind P (reserved2 (by omega)) fun h9 =>
    ite_ind P (key (by omega)) fun h10 => ite_ind P (blkIn (by omega)) fun h11 => ite_ind P (blkOut (by omega)) fun h12 =>
    ite_ind P (cb (by omega)) fun h13 => ite_ind P (reserved3 (by omega)) fun h14 => ite_ind P (rk (by omega)) fun h15 =>
    reserved4 (by omega)
/-- An offset is its register's base and the byte's index, which lies in the register. -/
theorem regMap_spec (a : Nat) : (regMap a).1 = .reserved ∨
    (locBase (regMap a).1 + (regMap a).2 = a ∧ (regMap a).2 < locSize (regMap a).1) := by
  refine regMap_ranges
    (fun p => p.1 = .reserved ∨ (locBase p.1 + p.2 = a ∧ p.2 < locSize p.1)) a
    ?_ ?_ ?_ ?_ ?_ ?_ ?_ ?_ ?_ ?_ ?_ ?_ ?_ ?_ ?_ ?_ <;> intros <;>
    first | exact .inl rfl | (right; constructor <;> simp only [locBase, locSize] <;> omega)

/-- A byte of a register stands at the register's base plus its index. -/
theorem regMap_base {l : Loc} (hl : l ≠ .reserved) {k : Nat} (hk : k < locSize l) :
    regMap (locBase l + k) = (l, k) := by
  refine regMap_ranges (fun p => p = (l, k)) (locBase l + k)
    ?_ ?_ ?_ ?_ ?_ ?_ ?_ ?_ ?_ ?_ ?_ ?_ ?_ ?_ ?_ ?_ <;> intros <;> cases l <;>
    simp only [locBase, locSize] at * <;> first | omega | contradiction | exact Prod.ext rfl (by dsimp only; omega)

/-- The reserved ranges (R26, R73). -/
theorem regMap_reserved {a : Nat} (h : (0x00C ≤ a ∧ a < 0x010) ∨ (0x030 ≤ a ∧ a < 0x040) ∨ (0x080 ≤ a ∧ a < 0x100) ∨
    0x1B0 ≤ a) : (regMap a).1 = .reserved := by
  refine regMap_ranges (fun p => p.1 = .reserved) a
    ?_ ?_ ?_ ?_ ?_ ?_ ?_ ?_ ?_ ?_ ?_ ?_ ?_ ?_ ?_ ?_ <;> intros <;> first | rfl | omega

/-- The offsets the host may write are those of the writable registers. -/
theorem hostWritable_reg (a : Nat) : hostWritable .reg a ↔ locWritable (regMap a).1 = true := by
  refine regMap_ranges (fun p => hostWritable .reg a ↔ locWritable p.1 = true) a
    ?_ ?_ ?_ ?_ ?_ ?_ ?_ ?_ ?_ ?_ ?_ ?_ ?_ ?_ ?_ ?_ <;> intros <;>
    simp only [locWritable, hostWritable, Bool.false_eq_true, iff_false, iff_true] <;> omega

/-- Reading one register after a byte of one was written. -/
theorem readLoc_writeLoc (free b : Byte) (s : State) (l l' : Loc) (k k' : Nat)
    (h : l' = .reserved ∨ k' < locSize l') :
    readLoc free (writeLoc l k b s) l' k' =
      if l' = l ∧ k' = k ∧ locWritable l = true then b else readLoc free s l' k' := by
  cases l <;> cases l' <;>
    simp only [writeLoc, readLoc, locWritable, locSize, reduceCtorEq, false_and, and_false, and_true, true_and, if_false,
      Bool.false_eq_true, false_or] at h ⊢
  all_goals first | rfl | exact lane_setLane _ _ _ (by omega) | exact byteAt_setByteAt _ _ _ h

/-- What every location reads after one byte was written (R62, R64). -/
theorem readByte_writeByte (free b : Byte) (s : State) (win w : Win) (a x : Nat) :
    readByte free (writeByte win a b s) w x =
      if w = win ∧ x = a ∧ (win = .din ∨ (win = .reg ∧ locWritable (regMap a).1 = true)) then b
      else readByte free s w x := by
  cases win
  · cases w
    · show readLoc free (writeLoc (regMap a).1 (regMap a).2 b s) (regMap x).1 (regMap x).2 = _
      rw [readLoc_writeLoc _ _ _ _ _ _ _ ((regMap_spec x).imp_right And.right)]
      by_cases hw : locWritable (regMap a).1 = true
      · have key : ((regMap x).1 = (regMap a).1 ∧ (regMap x).2 = (regMap a).2) ↔ x = a := by
          refine ⟨fun ⟨h1, h2⟩ => ?_, fun h => by simp [h]⟩
          have hr : (regMap a).1 ≠ .reserved := fun e => by simp [e, locWritable] at hw
          have ha := (regMap_spec a).resolve_left hr
          have hx := (regMap_spec x).resolve_left (h1 ▸ hr)
          rw [h1, h2] at hx
          omega
        simp only [key, hw, and_true, true_and, or_true, reduceCtorEq]
        rfl
      · simp only [hw, and_false, or_false, reduceCtorEq, if_false]
        rfl
    · rw [if_neg (by simp)]
      show dinByte (writeLoc _ _ _ _) x = dinByte s x
      cases (regMap a).1 <;> rfl
    · rw [if_neg (by simp)]
      show (if (writeLoc _ _ _ _).status.busy = true then free else doutByte (writeLoc _ _ _ _) x) = _
      cases (regMap a).1 <;> rfl
  · cases w
    · rw [if_neg (by simp)]
      show readLoc free (writeByte .din a b s) (regMap x).1 (regMap x).2 = readLoc free s _ _
      cases (regMap x).1 <;> rfl
    · simp only [writeByte, readByte, dinByte, Memory.get?_set]
      by_cases h : x = a <;> simp [h]
    · rw [if_neg (by simp)]; rfl
  · rw [if_neg (by simp)]; rfl

/-- The fields a host write can touch: the host-writable registers and DIN (R64). -/
theorem writeBytes_fields (win : Win) (off : Nat) (v : BitVec 64) (n : Nat) (s : State) :
    ∃ keylen ictr blkidx len key blkIn din, writeBytes win off v n s =
      { s with keylen := keylen, ictr := ictr, blkidx := blkidx, len := len, key := key, blkIn := blkIn,
               din := din } := by
  induction n with
  | zero => exact ⟨_, _, _, _, _, _, _, rfl⟩
  | succ n ih =>
    obtain ⟨keylen, ictr, blkidx, len, key, blkIn, din, h⟩ := ih
    rw [writeBytes, h]
    cases win
    · simp only [writeByte]
      cases (regMap (off + n)).1 <;> exact ⟨_, _, _, _, _, _, _, rfl⟩
    · exact ⟨_, _, _, _, _, _, _, rfl⟩
    · exact ⟨_, _, _, _, _, _, _, rfl⟩

/-- What every location reads after a host write's bytes were stored (R64). -/
theorem readByte_writeBytes (free : Byte) (s : State) (win w : Win) (off x : Nat) (v : BitVec 64) (n : Nat) :
    readByte free (writeBytes win off v n s) w x =
      if w = win ∧ off ≤ x ∧ x < off + n ∧ (win = .din ∨ (win = .reg ∧ locWritable (regMap x).1 = true)) then
        lane v (x - off)
      else readByte free s w x := by
  induction n with
  | zero => rw [if_neg (by omega)]; rfl
  | succ n ih =>
    rw [writeBytes, readByte_writeByte, ih]
    by_cases hx : x = off + n
    · subst hx
      have e : off + n - off = n := by omega
      simp [e]
    · have h1 : (off ≤ x ∧ x < off + (n + 1)) ↔ (off ≤ x ∧ x < off + n) := by omega
      have h2 : ∀ p : Prop, (w = win ∧ off ≤ x ∧ x < off + (n + 1) ∧ p) ↔ (w = win ∧ off ≤ x ∧ x < off + n ∧ p) := by
        intro p
        constructor
        · exact fun ⟨a, b, c, d⟩ => ⟨a, b, by omega, d⟩
        · exact fun ⟨a, b, c, d⟩ => ⟨a, b, by omega, d⟩
      rw [if_neg (by tauto)]
      simp only [h2]

/-- Bytes stored in DIN keep its canonical form and its bounds. -/
theorem writeBytes_din {cap : Nat} (win : Win) (off : Nat) (v : BitVec 64) (n : Nat) (s : State)
    (h : BufferLegal cap s.din) (hb : win = .din → off + n ≤ cap) :
    BufferLegal cap (writeBytes win off v n s).din := by
  induction n with
  | zero => exact h
  | succ n ih =>
    have ih := ih fun e => by have := hb e; omega
    rw [writeBytes]
    cases win
    · simp only [writeByte]
      cases (regMap (off + n)).1 <;> exact ih
    · have := hb rfl
      exact ⟨Memory.set_wf ih.1 _ _, Memory.set_below ih.2 (by omega) _⟩
    · exact ih

/-- An access is taken exactly when its width, its alignment and its bounds are right (R66, R67, R68). -/
theorem accessTaken_iff (cap : Nat) (win : Win) (off n : Nat) :
    accessTaken cap win off n = true ↔ n ∈ [1, 2, 4, 8] ∧ off % n = 0 ∧ off + n ≤ win.size cap := by
  simp [accessTaken, accessWidth, and_assoc, or_assoc]

end Sys2Proof.Machine
end

