-- ==== Sys2Proof/Laws/Stream.lean ====
section
/-! SUPPORT. What the block loop of PROCESS can do, said once: its end state as one update, and what DOUT then holds
at every offset. -/

namespace Sys2Proof.Machine

theorem counterBlock_eq_none {ic idx : Nat} : counterBlock ic idx = none ↔ 2 ^ 64 - 1 - ic < idx := by
  simp [counterBlock]

theorem counterBlock_eq_some {ic idx : Nat} (h : idx ≤ 2 ^ 64 - 1 - ic) :
    counterBlock ic idx = some (counterLayout (ic + idx)) := by
  rw [counterBlock, if_neg (by omega)]

/-- The keystream block of index `i` when its counter value fits (R151). -/
def keystreamBlock (s : State) (i : Nat) : Bytes 16 := cipher s.rk (counterLayout (s.ictr.toNat + i))

theorem keystream_of_fits {s : State} {i : Nat} (h : i < 2 ^ 64 - s.ictr.toNat) :
    keystream s i = some (keystreamBlock s i) := by
  have : i ≤ 2 ^ 64 - 1 - s.ictr.toNat := by omega
  simp [keystream, counterBlock_eq_some this, keystreamBlock]

theorem keystream_of_not_fits {s : State} {i : Nat} (h : ¬ i < 2 ^ 64 - s.ictr.toNat) : keystream s i = none := by
  have hb := s.ictr.isLt
  have : counterBlock s.ictr.toNat i = none := counterBlock_eq_none.mpr (by omega)
  simp [keystream, this]

theorem length_blockOutput (s : State) (i : Nat) (ks : Bytes 16) :
    (blockOutput s i ks).length = sliceLength s i := by
  simp [blockOutput, xorData, dinRead, sliceLength]

theorem getElem?_blockOutput (s : State) (i : Nat) (ks : Bytes 16) {j : Nat} (h : j < sliceLength s i) :
    (blockOutput s i ks)[j]? = some (dinByte s (16 * i + j) ^^^ byteAt ks j) := by
  have h16 : j < 16 := by unfold sliceLength at h; omega
  have e : ks[j] = byteAt ks j := (byteAt_lt ks h16).symm
  simp [blockOutput, xorData, dinRead, h, h16, e]

/-- DOUT after the blocks `i` to `i + n - 1` of `s` have been written into `m`, in ascending order. -/
def writeBlocks (s : State) (i : Nat) : Nat → Memory → Memory
  | 0, m => m
  | n + 1, m => writeBlocks s (i + 1) n (Memory.write m (16 * i) (blockOutput s i (keystreamBlock s i)))

theorem writeBlocks_congr {s s' : State} (h : ∀ i ks, blockOutput s' i ks = blockOutput s i ks)
    (hk : ∀ i, keystreamBlock s' i = keystreamBlock s i) (n : Nat) :
    ∀ i m, writeBlocks s' i n m = writeBlocks s i n m := by
  induction n with
  | zero => intros; rfl
  | succ n ih => intro i m; simp only [writeBlocks, h, hk, ih]

/-- The block loop as one update: with `2^64 - ICTR` as the first index that does not fit, the blocks below it are
written, OUTLEN says how many bytes that is, and ERR is CounterOverflow when a block is left over (R156). -/
theorem processBlocks_eq (left : Nat) : ∀ (i : Nat) (s : State), i ≤ 2 ^ 64 - s.ictr.toNat →
    processBlocks left i s =
      complete (if left ≤ 2 ^ 64 - s.ictr.toNat - i then 0 else 2)
        { s with
          dout := writeBlocks s i (min left (2 ^ 64 - s.ictr.toNat - i)) s.dout
          outlen := if left ≤ 2 ^ 64 - s.ictr.toNat - i then s.len
                    else BitVec.ofNat 64 (16 * (2 ^ 64 - s.ictr.toNat)) } := by
  induction left with
  | zero => intro i s _; simp [processBlocks, writeBlocks]
  | succ left ih =>
    intro i s hi
    unfold processBlocks
    by_cases hf : i < 2 ^ 64 - s.ictr.toNat
    · rw [keystream_of_fits hf]
      simp only
      rw [ih (i + 1) _ (by simpa using hf)]
      have hm : min (left + 1) (2 ^ 64 - s.ictr.toNat - i) = min left (2 ^ 64 - s.ictr.toNat - (i + 1)) + 1 := by omega
      have hc : left + 1 ≤ 2 ^ 64 - s.ictr.toNat - i ↔ left ≤ 2 ^ 64 - s.ictr.toNat - (i + 1) := by omega
      simp only [processBlock_ictr, processBlock_len, processBlock_dout, hm, hc, writeBlocks]
      rw [writeBlocks_congr (s := s) (s' := processBlock i (keystreamBlock s i) s) (fun _ _ => rfl) (fun _ => rfl)]
      rfl
    · rw [keystream_of_not_fits hf]
      have hi' : 2 ^ 64 - s.ictr.toNat = i := by omega
      rw [hi', Nat.sub_self, Nat.min_zero, if_neg (by omega), if_neg (by omega)]
      rfl

/-- What DOUT holds after blocks have been written: at the offsets of those blocks below LEN the data exclusive-or
the keystream, elsewhere what it held. -/
theorem get?_writeBlocks (s : State) (n : Nat) : ∀ (i : Nat) (m : Memory) (x : Nat),
    Memory.get? (writeBlocks s i n m) x =
      if 16 * i ≤ x ∧ x < 16 * (i + n) ∧ x < s.len.toNat then
        some (dinByte s x ^^^ byteAt (keystreamBlock s (x / 16)) (x % 16))
      else Memory.get? m x := by
  induction n with
  | zero =>
    intro i m x
    rw [if_neg (by omega)]; rfl
  | succ n ih =>
    intro i m x
    rw [writeBlocks, ih, Memory.get?_write, length_blockOutput]
    by_cases h1 : 16 * (i + 1) ≤ x ∧ x < 16 * (i + 1 + n) ∧ x < s.len.toNat
    · rw [if_pos h1, if_pos (by omega)]
    · rw [if_neg h1]
      by_cases h2 : 16 * i ≤ x ∧ x < 16 * i + sliceLength s i
      · have hs : sliceLength s i = min 16 (s.len.toNat - 16 * i) := rfl
        rw [if_pos h2, if_pos (by omega), getElem?_blockOutput s i _ (by omega)]
        have e1 : 16 * i + (x - 16 * i) = x := by omega
        have e2 : x / 16 = i := by omega
        have e3 : x - 16 * i = x % 16 := by omega
        rw [e1, e2, e3]
      · have hs : sliceLength s i = min 16 (s.len.toNat - 16 * i) := rfl
        rw [if_neg h2, if_neg (by omega)]

theorem writeBlocks_wf (s : State) (n : Nat) : ∀ (i : Nat) {m : Memory}, Memory.wf m →
    Memory.wf (writeBlocks s i n m) := by
  induction n with
  | zero => intro i m h; exact h
  | succ n ih => intro i m h; exact ih (i + 1) (Memory.write_wf _ h _)

theorem writeBlocks_below {cap : Nat} (s : State) (hc : s.len.toNat ≤ cap) (n : Nat) : ∀ (i : Nat) {m : Memory},
    Memory.below cap m → 16 * (i + n) < s.len.toNat + 16 → Memory.below cap (writeBlocks s i n m) := by
  induction n with
  | zero => intro i m h _; exact h
  | succ n ih =>
    intro i m h hn
    refine ih (i + 1) (Memory.write_below _ h ?_) (by omega)
    rw [length_blockOutput]; unfold sliceLength; omega

/-! ### PROCESS, one equation for each way its checks go -/

theorem keyLengthOk_iff (s : State) : keyLengthOk s = true ↔ s.keylen = 16 := by simp [keyLengthOk]

theorem execProcess_keyLength {s : State} (h : s.keylen ≠ 16) :
    execProcess s = .next (complete 1 { dropSchedule s with outlen := 0 }) := by
  have : keyLengthOk s = false := by rw [Bool.eq_false_iff, ne_eq, keyLengthOk_iff]; exact h
  simp [execProcess, this, errCode]

theorem execProcess_length {s : State} (h : s.keylen = 16) (hl : s.params.bufcap < s.len.toNat) :
    execProcess s = .next (complete 5 { s with outlen := 0 }) := by
  simp [execProcess, keyLengthOk, h, hl, errCode]

theorem execProcess_empty {s : State} (h : s.keylen = 16) (hl : s.len.toNat = 0) :
    execProcess s = .next (complete 0 { s with outlen := 0 }) := by
  simp [execProcess, keyLengthOk, h, hl]

/-- The state after the key expansion of a PROCESS. -/
abbrev expanded (s : State) : State := installSchedule (roundKeys s.key) s

theorem execProcess_blocks {s : State} (h : s.keylen = 16) (hl : s.len.toNat ≤ s.params.bufcap)
    (h0 : 0 < s.len.toNat) :
    execProcess s = .next
      (complete (if blockCount s ≤ 2 ^ 64 - s.ictr.toNat then 0 else 2)
        { expanded s with
          dout := writeBlocks (expanded s) 0 (min (blockCount s) (2 ^ 64 - s.ictr.toNat)) s.dout
          outlen := if blockCount s ≤ 2 ^ 64 - s.ictr.toNat then s.len
                    else BitVec.ofNat 64 (16 * (2 ^ 64 - s.ictr.toNat)) }) := by
  have h1 : ¬ s.params.bufcap < s.len.toNat := by omega
  have h2 : ¬ s.len.toNat = 0 := by omega
  rw [execProcess]
  simp only [keyLengthOk, h, h1, h2, beq_self_eq_true, Bool.not_true, Bool.false_eq_true, if_false]
  rw [processBlocks_eq _ _ _ (Nat.zero_le _)]
  rfl

end Sys2Proof.Machine
end

