-- ==== Sys2Proof/Laws/Commands.lean ====
section
/-! SUPPORT. The four commands, one equation for each way their checks go, and what every command can change. -/

namespace Sys2Proof.Machine

theorem exec_expand_ok {s : State} (h : s.keylen = 16) :
    exec .expand s = .next (complete 0 (installSchedule (roundKeys s.key) s)) := by
  simp [exec, execExpand, keyLengthOk, h]

theorem exec_expand_refused {s : State} (h : s.keylen ≠ 16) :
    exec .expand s = .next (complete 1 (dropSchedule s)) := by
  have : keyLengthOk s = false := by rw [Bool.eq_false_iff, ne_eq, keyLengthOk_iff]; exact h
  simp [exec, execExpand, this, errCode]

theorem exec_encblk_ok {s : State} (h : s.status.rkvalid = true) :
    exec .encblk s = .next (complete 0 { s with blkOut := cipher s.rk s.blkIn }) := by
  simp [exec, execEncblk, h]

theorem exec_encblk_refused {s : State} (h : s.status.rkvalid = false) :
    exec .encblk s = .next (complete 4 s) := by
  simp [exec, execEncblk, h, errCode]

theorem exec_ctrblk_ok {s : State} (h : s.blkidx.toNat ≤ 2 ^ 64 - 1 - s.ictr.toNat) :
    exec .ctrblk s = .next (complete 0 { s with cb := counterLayout (s.ictr.toNat + s.blkidx.toNat) }) := by
  rw [exec, execCtrblk, counterBlock_eq_some h]; rfl

theorem exec_ctrblk_refused {s : State} (h : 2 ^ 64 - 1 - s.ictr.toNat < s.blkidx.toNat) :
    exec .ctrblk s = .next (complete 2 s) := by
  rw [exec, execCtrblk, counterBlock_eq_none.mpr h]; rfl

/-- Every command completes, and changes at most its result fields (R23): RK and RKVALID, BLK_OUT, CB, DOUT, OUTLEN,
the flags, and the draw counter of the free values. -/
theorem exec_shape (i : Instr) (s : State) : ∃ rk blkOut cb dout outlen draws rkvalid code,
    exec i s = .next { s with rk := rk, blkOut := blkOut, cb := cb, dout := dout, outlen := outlen, draws := draws,
                              status := { busy := false, done := true, rkvalid := rkvalid, err := code } } ∧
      (code = 0 ∨ code = 1 ∨ code = 2 ∨ code = 4 ∨ code = 5) := by
  cases i
  case expand =>
    by_cases h : s.keylen = 16
    · exact ⟨_, _, _, _, _, _, _, _, exec_expand_ok h, .inl rfl⟩
    · exact ⟨_, _, _, _, _, _, _, _, exec_expand_refused h, .inr (.inl rfl)⟩
  case encblk =>
    by_cases h : s.status.rkvalid = true
    · exact ⟨_, _, _, _, _, _, _, _, exec_encblk_ok h, .inl rfl⟩
    · exact ⟨_, _, _, _, _, _, _, _, exec_encblk_refused (by simpa using h), by decide⟩
  case ctrblk =>
    by_cases h : s.blkidx.toNat ≤ 2 ^ 64 - 1 - s.ictr.toNat
    · exact ⟨_, _, _, _, _, _, _, _, exec_ctrblk_ok h, .inl rfl⟩
    · exact ⟨_, _, _, _, _, _, _, _, exec_ctrblk_refused (by omega), by decide⟩
  case process =>
    by_cases h : s.keylen = 16
    · by_cases hl : s.params.bufcap < s.len.toNat
      · exact ⟨_, _, _, _, _, _, _, _, execProcess_length h hl, by decide⟩
      · by_cases h0 : s.len.toNat = 0
        · exact ⟨_, _, _, _, _, _, _, _, execProcess_empty h h0, .inl rfl⟩
        · refine ⟨_, _, _, _, _, _, _, _, execProcess_blocks h (by omega) (by omega), ?_⟩
          split <;> simp
    · exact ⟨_, _, _, _, _, _, _, _, execProcess_keyLength h, by decide⟩

end Sys2Proof.Machine
end

