-- ==== Sys2Proof/Laws/KeySchedule.lean ====
section
/-! SUPPORT. The key expansion's word list: its length, and that a word once made stays. -/

namespace Sys2Proof.Machine

theorem length_expandWords (key : Bytes 16) (n : Nat) : (expandWords key n).length = n + 4 := by
  induction n with
  | zero => rfl
  | succ n ih => simp [expandWords, ih]

/-- Later turns of the loop leave the earlier words alone. -/
theorem getElem?_expandWords (key : Bytes 16) {i n m : Nat} (h : i < n + 4) (hm : n ≤ m) :
    (expandWords key m)[i]? = (expandWords key n)[i]? := by
  induction m, hm using Nat.le_induction with
  | base => rfl
  | succ m hm ih => rw [expandWords, List.getElem?_append_left (by rw [length_expandWords]; omega), ih]

/-- The word a turn of the loop adds. -/
theorem getElem?_expandWords_succ (key : Bytes 16) (n : Nat) :
    (expandWords key (n + 1))[n + 4]? = some (nextWord (expandWords key n) (n + 4)) := by
  rw [expandWords, List.getElem?_append_right (by rw [length_expandWords]), length_expandWords, Nat.sub_self]; rfl

/-- Byte `4i + j` of a packed schedule is byte `j` of word `i`. -/
theorem byteAt_packWords (ws : List Word) {i j : Nat} (hi : i < 44) (hj : j < 4) :
    byteAt (packWords ws) (4 * i + j) = wordByte (ws.getD i zeroWord) j := by
  rw [packWords, byteAt_tabulate_lt (by omega)]
  have e1 : (4 * i + j) / 4 = i := by omega
  have e2 : (4 * i + j) % 4 = j := by omega
  rw [e1, e2]

end Sys2Proof.Machine
end

