-- ==== Sys2Proof/Laws/PerInstr.lean ====
section
/-! SUPPORT. The per-instruction family CommandWord: what the command word of each command looks like as syntax. -/

namespace Sys2Proof.Laws.CommandWord

/-- The command word of `i` has a zero ZERO field and its opcode in 1..4 (R90, R92), and `i`, which has no operand,
is well formed (R91). -/
def Statement (i : Instr) : Prop :=
  i.wellFormed = true ∧ zeroField (encode i) = 0 ∧ 1 ≤ (opcField (encode i)).toNat ∧ (opcField (encode i)).toNat ≤ 4

theorem expand : Statement .expand := by unfold Statement; decide

theorem encblk : Statement .encblk := by unfold Statement; decide

theorem ctrblk : Statement .ctrblk := by unfold Statement; decide

theorem process : Statement .process := by unfold Statement; decide

end Sys2Proof.Laws.CommandWord
end

