-- ==== Sys2Proof/Laws/Step.lean ====
section
/-! SUPPORT. What one step can do, said once: the cases of an event, of a sequencer's turn, and of a host access. -/

namespace Sys2Proof.Machine

/-- A turn of the sequencer (R97): nothing while BUSY is 0, else the pending command or an illegal word's
completion. -/
theorem sequencerTurn_cases {s t : State} (h : sequencerTurn s = .next t) :
    (s.status.busy = false ∧ t = s) ∨
      (s.status.busy = true ∧ ((∃ i, decode s.op = .ok i ∧ exec i s = .next t) ∨
        ((∃ e, decode s.op = .error e) ∧ t = complete 3 s))) := by
  unfold sequencerTurn at h
  split at h
  · rename_i hb
    refine .inr ⟨hb, ?_⟩
    unfold completion pending at h
    split at h
    · exact .inl ⟨_, ‹_›, h⟩
    · refine .inr ⟨⟨_, ‹_›⟩, ?_⟩
      injection h with h
      exact h.symm
  · rename_i hb
    injection h with h
    exact .inl ⟨by simpa using hb, h.symm⟩

/-- One step: the sequencer's turn on an empty agenda, else the agenda's next event. -/
theorem step_cases {s t : State} (h : step s = .next t) :
    (s.agenda = [] ∧ sequencerTurn s = .next t) ∨
      ∃ rest, (s.agenda = .sequencer :: rest ∧ sequencerTurn { s with agenda := rest } = .next t) ∨
        (∃ a, s.agenda = .access a :: rest ∧ t = hostAccess a { s with agenda := rest }) ∨
        (s.agenda = .rst :: rest ∧ t = resetCore { s with agenda := rest }) := by
  unfold step at h
  split at h
  · exact .inl ⟨‹_›, h⟩
  · rename_i e rest he
    refine .inr ⟨rest, ?_⟩
    cases e
    case access a => injection h with h; exact .inr (.inl ⟨a, he, h.symm⟩)
    case sequencer => exact .inl ⟨he, h⟩
    case rst => injection h with h; exact .inr (.inr ⟨he, h.symm⟩)

/-- A host access (R63, R64, R68): a read and a refused or dropped write change only what is the model's own; a
taken write while BUSY is 0 stores its bytes, and issues a command if it covers CMD. -/
theorem hostAccess_cases (a : Access) (s : State) :
    (∃ replies draws, hostAccess a s = { s with replies := replies, draws := draws }) ∨
      (s.status.busy = false ∧ ∃ win off n v, a = .write win off n v ∧
        accessTaken s.params.bufcap win off n = true ∧
        ((coversCmd win off = true ∧
            hostAccess a s = reply .ack (issue (commandWord n v) (writeBytes win off v n s))) ∨
          (coversCmd win off = false ∧ hostAccess a s = reply .ack (writeBytes win off v n s)))) := by
  cases a with
  | read win off n =>
    left
    unfold hostAccess
    dsimp only
    split <;> exact ⟨_, _, rfl⟩
  | write win off n v =>
    unfold hostAccess
    dsimp only
    split
    · rename_i ht
      unfold hostWrite
      split
      · exact .inl ⟨_, _, rfl⟩
      · rename_i hb
        refine .inr ⟨by simpa using hb, win, off, n, v, rfl, ht, ?_⟩
        split
        · exact .inl ⟨‹_›, rfl⟩
        · exact .inr ⟨by simpa using ‹¬ coversCmd win off = true›, rfl⟩
    · exact .inl ⟨_, _, rfl⟩

end Sys2Proof.Machine
end

