-- ==== Sys2Proof/Machine/Script.lean ====
section
/-! DEFINITION. The host-script notation (30_encoding.md R101) as events, and the source's four function calls as
scripts (R102). -/

namespace Sys2Proof.Machine

/-- The read of STATUS that `wait` repeats (R101). -/
def pollStatus : Event := .access (.read .reg 0x004 4)

/-- The events of a script line (R101). `wait` reads STATUS until BUSY reads 0: `polls` reads come while the
operation is still pending, then its completion, then the read that sees BUSY = 0; how many come before is the
scheduler's choice (93_implementation_defined.md U10). -/
def lineEvents (polls : Nat) : Line → List Event
  | .wr bits win off v => [.access (.write win off (bits / 8) v)]
  | .rd bits win off => [.access (.read win off (bits / 8))]
  | .cmd i => [.access (.write .reg 0x000 4 ((encode i).setWidth 64))]
  | .wait => List.replicate polls pollStatus ++ [.sequencer, pollStatus]

/-- The events of a script. -/
def scriptEvents (polls : Nat) (ls : List Line) : List Event := ls.flatMap (lineEvents polls)

/-- Byte writes of `bs` from offset `off` of a window upward. -/
def storeLines (win : Win) (off : Nat) : List (BitVec 8) → List Line
  | [] => []
  | b :: bs => .wr 8 win off (b.setWidth 64) :: storeLines win (off + 1) bs

/-- Byte reads of `n` bytes from offset `off` of a window upward. -/
def loadLines (win : Win) (off n : Nat) : List Line := (List.range n).map fun j => .rd 8 win (off + j)

/-- KEY (at most 16 bytes of it) and KEYLEN as `expand` and `process` load them (R102). -/
def keyLines (key : List (BitVec 8)) : List Line :=
  storeLines .reg 0x040 (key.take 16) ++ [.wr 32 .reg 0x008 (BitVec.ofNat 64 key.length)]

/-- `expand(key)` (R102). -/
def expandCall (key : List (BitVec 8)) : List Line :=
  keyLines key ++ [.cmd .expand, .wait] ++ loadLines .reg 0x100 176

/-- `encryptBlock(block, schedule)`, the schedule being the one in RK (R102). -/
def encryptBlockCall (block : List (BitVec 8)) : List Line :=
  storeLines .reg 0x050 block ++ [.cmd .encblk, .wait] ++ loadLines .reg 0x060 16

/-- `counterBlock(initial_counter, block_index)` (R102). -/
def counterBlockCall (ic idx : BitVec 64) : List Line :=
  [.wr 64 .reg 0x010 ic, .wr 64 .reg 0x018 idx, .cmd .ctrblk, .wait] ++ loadLines .reg 0x070 16

/-- `process(key, data, initial_counter = 0)` (R102). Its result is DOUT[0..OUTLEN-1]: OUTLEN is read first, and
then as many bytes of DOUT as the data has. -/
def processCall (key data : List (BitVec 8)) (ic : BitVec 64 := 0) : List Line :=
  keyLines key ++ [.wr 64 .reg 0x010 ic, .wr 64 .reg 0x020 (BitVec.ofNat 64 data.length)] ++
    storeLines .din 0 data ++ [.cmd .process, .wait, .rd 64 .reg 0x028] ++ loadLines .dout 0 data.length

end Sys2Proof.Machine
end

