-- ==== Sys2Proof/Tests/Slice0.lean ====
section
/-! SUPPORT. Tests against the vectors of spec/95_test_vectors.md (each test names its vector), the ill-formed terms
the checks refuse, and for every statement with hypotheses a witness that meets them. -/

namespace Sys2Proof.Tests

open Sys2Proof.Machine Sys2Proof.Safety Sys2Proof.Claims

/-! ### Small helpers -/

/-- The byte array of a list of numbers. -/
def bytes (n : Nat) (l : List Nat) : Bytes n := tabulate n fun k => BitVec.ofNat 8 (l.getD k 0)

/-- The state a command leaves. -/
def after (i : Instr) (s : State) : State :=
  match exec i s with
  | .next t => t
  | .fault _ => s
  | .refused _ => s

theorem exec_after (i : Instr) (s : State) : exec i s = .next (after i s) := by
  obtain ⟨_, _, _, _, _, _, _, _, h, _⟩ := exec_shape i s
  simp [after, h]

/-- The state a step leaves. -/
def stepped (s : State) : State :=
  match step s with
  | .next t => t
  | .fault _ => s
  | .refused _ => s

/-- The key of the source's first vector (V1), 000102…0f. -/
def keyV1 : Bytes 16 := bytes 16 (List.range 16)

/-- The key of the source's second vector (V2). -/
def keyV2 : Bytes 16 :=
  bytes 16 [0x2b, 0x7e, 0x15, 0x16, 0x28, 0xae, 0xd2, 0xa6, 0xab, 0xf7, 0x15, 0x88, 0x09, 0xcf, 0x4f, 0x3c]

/-- A state with the key of V1 loaded, nothing expanded. -/
def loaded : State := { State.reset with key := keyV1, keylen := 16 }

/-- The same with `cw` pending. -/
def pendingState (cw : BitVec 32) : State := issue cw loaded

/-- The same with RKVALID set (RK all zero, which is no schedule: an unreachable state, enough for the frames). -/
def withSchedule : State := { loaded with status := { State.reset.status with rkvalid := true } }

/-- A PROCESS of one byte (P5). -/
def oneByte : State := { loaded with len := 1, din := [(0, 0xaa)] }

/-- A PROCESS of 17 bytes from counter `ic`, all of them 5a (P7 for ic = 2^64 - 1). -/
def seventeen (ic : BitVec 64) : State :=
  { loaded with len := 17, ictr := ic, din := Memory.write [] 0 (List.replicate 17 0x5a) }

/-! ### Ill-formed terms -/

theorem test_instr_wellFormed :
    Instr.expand.wellFormed && Instr.encblk.wellFormed && Instr.ctrblk.wellFormed && Instr.process.wellFormed = true := by
  decide

/-- E22: a 3-byte access, a misaligned one, one outside the window; and at the last offsets of each window. -/
theorem test_illformed_accesses :
    (Access.read .reg 0x000 3).wellFormed 64 = false ∧ (Access.read .reg 0x000 0).wellFormed 64 = false ∧
      (Access.write .reg 0x002 4 0).wellFormed 64 = false ∧ (Access.read .reg 0x200 4).wellFormed 64 = false ∧
      (Access.read .din 64 1).wellFormed 64 = false ∧ (Access.write .dout 64 8 0).wellFormed 64 = false ∧
      (Access.read .reg 0x1F8 8).wellFormed 64 = true ∧ (Access.read .din 63 1).wellFormed 64 = true := by decide

/-- Parameters that break one demand each: BUFCAP no multiple of 16, below 16, above 2^60; no lane; windows that
overlap. -/
theorem test_illformed_params :
    (⟨24, 1, 0, 0x1000, 0x2000⟩ : Params).wellFormed = false ∧ (⟨0, 1, 0, 0x1000, 0x2000⟩ : Params).wellFormed = false ∧
      (⟨2 ^ 60 + 16, 1, 0, 0x1000, 2 ^ 62⟩ : Params).wellFormed = false ∧
      (⟨16, 0, 0, 0x1000, 0x2000⟩ : Params).wellFormed = false ∧ (⟨16, 1, 0, 0x100, 0x2000⟩ : Params).wellFormed = false ∧
      (⟨16, 1, 0, 0x1000, 0x100⟩ : Params).wellFormed = false ∧
      (⟨16, 1, 0, 0x1000, 0x1008⟩ : Params).wellFormed = false ∧ State.reset.params.wellFormed = true := by decide

/-! ### Decoding, the words written out bit by bit from R90 and R92 -/

theorem test_decode_words :
    decode 0b00000000000000000000000000000001 = .ok .expand ∧ decode 0b00000000000000000000000000000010 = .ok .encblk ∧
      decode 0b00000000000000000000000000000011 = .ok .ctrblk ∧
      decode 0b00000000000000000000000000000100 = .ok .process := by decide

/-- E6, E6b: 0, 5, 0xff with opcode errors; 0x101, 0x80000001, 0xffffffff with a ZERO field that is not zero. -/
theorem test_decode_illegal :
    decode 0 = .error (.opcode 0) ∧ decode 5 = .error (.opcode 5) ∧ decode 0xff = .error (.opcode 0xff) ∧
      decode 0x101 = .error (.zeroField 1) ∧ decode 0x80000001 = .error (.zeroField 0x800000) ∧
      decode 0xffffffff = .error (.zeroField 0xffffff) := by decide

theorem test_table_word : decodeTableWord 32 4 = some .process ∧ decodeTableWord 32 0x104 = none := by decide

/-- The word placed for the first step after reset is run by it. -/
theorem test_first_step : step (State.reset.withFetchWord 32 3) = exec .ctrblk (State.reset.withFetchWord 32 3) := rfl

/-! ### Constant tables (section 2 of 95) -/

theorem test_sbox : sbox 0x00 = 0x63 ∧ sbox 0x53 = 0xed ∧ sbox 0xc9 = 0xdd ∧ sbox 0xff = 0x16 := by decide

theorem test_field : xtime 0x7f = 0xfe ∧ xtime 0x80 = 0x1b ∧ xtime 0x8d = 0x01 ∧ mul3 0xbf = 0xda ∧
    gmul 0x57 0x13 = 0xfe ∧ gmul 0x57 0x83 = 0xc1 ∧ gmul 0x53 0xca = 0x01 := by decide

/-! ### Sub-steps (section 4 of 95) -/

theorem test_shiftRows : shiftRows (bytes 16 (List.range 16)) =
    bytes 16 [0x00, 0x05, 0x0a, 0x0f, 0x04, 0x09, 0x0e, 0x03, 0x08, 0x0d, 0x02, 0x07, 0x0c, 0x01, 0x06, 0x0b] := by
  decide +kernel

theorem test_mixColumns : mixColumns (bytes 16
      [0xd4, 0xbf, 0x5d, 0x30, 0xe0, 0xb4, 0x52, 0xae, 0xb8, 0x41, 0x11, 0xf1, 0x1e, 0x27, 0x98, 0xe5]) =
    bytes 16 [0x04, 0x66, 0x81, 0xe5, 0xe0, 0xcb, 0x19, 0x9a, 0x48, 0xf8, 0xd3, 0x7a, 0x28, 0x06, 0x26, 0x4c] := by
  decide +kernel

/-! ### EXPAND -/

/-- E1: from reset, KEYLEN = 0. -/
theorem test_expand_no_key : statusWord (stepped (State.reset.withFetchWord 32 1)).status = 0x00000102 := by
  decide +kernel

/-- K2: word 4 and round key 10 of the schedule of V2's key. -/
theorem test_expand_schedule :
    (keyExpansion keyV2)[4]? = some ⟨0xa0, 0xfa, 0xfe, 0x17⟩ ∧
      (after .expand { loaded with key := keyV2 }).rk.toList.drop 160 =
        [0xd0, 0x14, 0xf9, 0xa8, 0xc9, 0xee, 0x25, 0x89, 0xe1, 0x3f, 0x0c, 0xc8, 0xb6, 0x63, 0x0c, 0xa6] := by
  decide +kernel

/-! ### ENCBLK -/

/-- E3: from reset, no schedule. -/
theorem test_encblk_no_schedule : statusWord (stepped (State.reset.withFetchWord 32 2)).status = 0x00000402 := by
  decide +kernel

/-- E12, V1. -/
theorem test_encblk_vector :
    (after .encblk { after .expand loaded with blkIn := bytes 16 ((List.range 16).map (0x11 * ·)) }).blkOut =
      bytes 16 [0x69, 0xc4, 0xe0, 0xd8, 0x6a, 0x7b, 0x04, 0x30, 0xd8, 0xcd, 0xb7, 0x80, 0x70, 0xb4, 0xc5, 0x5a] := by
  decide +kernel

/-! ### CTRBLK -/

/-- PG5: the big-endian layout in bytes 8 to 15. -/
theorem test_ctrblk_layout :
    (after .ctrblk { State.reset with ictr := 0xfedcba9876543210, blkidx := 0x0f }).cb =
      bytes 16 [0, 0, 0, 0, 0, 0, 0, 0, 0xfe, 0xdc, 0xba, 0x98, 0x76, 0x54, 0x32, 0x1f] := by decide +kernel

/-- E14: 2^64 - 1 and 1 overflow, CB stays. -/
theorem test_ctrblk_overflow :
    (after .ctrblk { State.reset with ictr := 0xffffffffffffffff, blkidx := 1, cb := keyV2 }).cb = keyV2 ∧
      (after .ctrblk { State.reset with ictr := 0xffffffffffffffff, blkidx := 1 }).status.err = 2 := by decide +kernel

/-! ### PROCESS -/

/-- P1: 20 bytes, the last block of 4. -/
theorem test_process_partial_block :
    (after .process { loaded with len := 20, din := Memory.write [] 0 [0x00, 0x11, 0x22, 0x33, 0x44, 0x55, 0x66, 0x77,
      0x88, 0x99, 0xaa, 0xbb, 0xcc, 0xdd, 0xee, 0xff, 0x01, 0x02, 0x03, 0x04] }).dout =
      Memory.write [] 0 [0xc6, 0xb0, 0x19, 0x04, 0xc3, 0xda, 0x3d, 0xf5, 0xe7, 0xd6, 0x2b, 0xd9, 0x6d, 0x15, 0x36, 0x86,
        0x72, 0x44, 0x10, 0x91] := by decide +kernel

/-- P7, V7: the counter overflows at block 1. -/
theorem test_process_overflow :
    (after .process (seventeen 0xffffffffffffffff)).dout =
        Memory.write [] 0 [0x63, 0xfd, 0xb5, 0x50, 0x50, 0x02, 0x08, 0xf2, 0xe5, 0x88, 0x59, 0x79, 0x1e, 0xe5, 0xce, 0x48] ∧
      (after .process (seventeen 0xffffffffffffffff)).outlen = 16 ∧
      statusWord (after .process (seventeen 0xffffffffffffffff)).status = 0x00000206 := by decide +kernel

/-! ### The bus -/

/-- E21, R61: scalars are little-endian on the bus. -/
theorem test_write_ictr :
    let s := hostAccess (.write .reg 0x010 8 0x0102030405060708) State.reset
    s.ictr = 0x0102030405060708 ∧ (hostAccess (.read .reg 0x010 1) s).replies.head? = some (.data 1 0x08) ∧
      (hostAccess (.read .reg 0x017 1) s).replies.head? = some (.data 1 0x01) := by decide +kernel

/-- E20: BLK_OUT read as one 32-bit number; E19: CMD reads as 0. -/
theorem test_read_words :
    (hostAccess (.read .reg 0x060 4) { State.reset with blkOut := bytes 16 [0x69, 0xc4, 0xe0, 0xd8] }).replies =
        [.data 4 0xd8e0c469] ∧
      (hostAccess (.read .reg 0x000 4) State.reset).replies = [.data 4 0] := by decide +kernel

/-- E16: a byte write of 0x04 to CMD issues PROCESS; E17: a write to 0x002 issues nothing. -/
theorem test_issue :
    (hostAccess (.write .reg 0x000 1 0x04) State.reset).op = 4 ∧
      statusWord (hostAccess (.write .reg 0x000 1 0x04) State.reset).status = 0x00000001 ∧
      (hostAccess (.write .reg 0x002 2 0xffff) State.reset).status = State.reset.status := by decide +kernel

/-- E18: a write while BUSY is 1 is dropped; E22: a misaligned one is refused. -/
theorem test_dropped_and_refused :
    (hostAccess (.write .reg 0x008 4 0x11) (pendingState 1)).keylen = 16 ∧
      (hostAccess (.write .reg 0x000 4 0x02) (pendingState 1)).op = 1 ∧
      (hostAccess (.write .reg 0x002 4 0x11) State.reset).replies = [.writeError] := by decide +kernel

/-- R101, R102: the events of `counterBlock(1, 2)` begin with its three writes. -/
theorem test_script :
    (scriptEvents 0 (counterBlockCall 1 2)).take 4 =
      [.access (.write .reg 0x010 8 1), .access (.write .reg 0x018 8 2), .access (.write .reg 0x000 4 3), .sequencer] := by
  decide

/-! ### Witnesses: states and operands that meet each statement's hypotheses -/

theorem witness_DecodeAgreesWithEncode : Instr.process.wellFormed = true ∧ decode 4 = .ok .process := by decide

/-- A word for each of the two ways to be rejected, at the ends of the opcode range. -/
theorem witness_OtherWordsRejectedByName :
    (∀ i, (0 : BitVec 32) ≠ encode i) ∧ (∀ i, (5 : BitVec 32) ≠ encode i) ∧ ∀ i, (0x100 : BitVec 32) ≠ encode i := by
  refine ⟨?_, ?_, ?_⟩ <;> intro i <;> cases i <;> decide

theorem witness_StepRunsPendingCommand :
    (pendingState 1).status.busy = true ∧ decode (pendingState 1).op = .ok .expand ∧ (pendingState 1).agenda = [] ∧
      ({ pendingState 1 with agenda := [.sequencer] } : State).agenda = .sequencer :: [] := by decide

theorem witness_SequencerIdleWhenNotBusy :
    loaded.status.busy = false ∧ loaded.agenda = [] ∧
      ({ loaded with agenda := [.sequencer] } : State).agenda = .sequencer :: [] := by decide

theorem witness_IllegalCommandWritesOnlyStatus :
    (pendingState 7).status.busy = true ∧ ∀ i, (pendingState 7).op ≠ encode i := by
  refine ⟨by decide, fun i => ?_⟩; cases i <;> decide

theorem witness_PendingOperationCompletes :
    (pendingState 4).status.busy = true ∧
      ∀ e ∈ ({ pendingState 4 with agenda := [pollStatus, .sequencer] } : State).agenda, e ≠ .rst := by decide

theorem witness_RoundConstantsDouble : 1 ≤ 1 ∧ 1 ≤ 9 ∧ 1 ≤ 9 ∧ 9 ≤ 9 := by decide

/-- The words at the ends of both clauses: 0, 3 and 4, 43. -/
theorem witness_KeyExpansionRecurrence : 0 < 4 ∧ 3 < 4 ∧ 4 ≤ 4 ∧ 4 < 44 ∧ 4 ≤ 43 ∧ 43 < 44 := by decide

theorem witness_SchedulePacksWordsInOrder :
    (keyExpansion keyV1)[43]? = some ⟨0x4d, 0x2b, 0x30, 0xc5⟩ ∧ (keyExpansion keyV1)[0]? = some ⟨0, 1, 2, 3⟩ := by
  decide +kernel

theorem witness_ExpandWritesSchedule :
    loaded.keylen = 16 ∧ (keyExpansion loaded.key)[4]? = some ⟨0xd6, 0xaa, 0x74, 0xfd⟩ ∧
      ({ loaded with keylen := 15 } : State).keylen ≠ 16 ∧ ({ loaded with keylen := 17 } : State).keylen ≠ 16 := by
  decide +kernel

theorem witness_ExpandFrame : ∃ t, exec .expand loaded = .next t := ⟨_, exec_after _ _⟩

theorem witness_SubBytesAndAddRoundKey : 0 < 16 ∧ 15 < 16 := by decide

theorem witness_ShiftRowsShiftsEachRow : 0 < 4 ∧ 3 < 4 := by decide

theorem witness_MixColumnsMultipliesColumns : 0 < 4 ∧ 3 < 4 := by decide

theorem witness_CipherIsInjective : ∃ b, cipher (roundKeys keyV1) keyV1 = cipher (roundKeys keyV1) b := ⟨keyV1, rfl⟩

theorem witness_EncblkEncryptsBlock : withSchedule.status.rkvalid = true ∧ loaded.status.rkvalid = false := by decide

theorem witness_EncblkFrame : ∃ t, exec .encblk withSchedule = .next t := ⟨_, exec_after _ _⟩

/-- A write to KEYLEN, the 8-byte one over it and the reserved bytes behind it, and writes at both ends of KEY. -/
theorem witness_EncblkIgnoresKeyWrites :
    withSchedule.status.busy = false ∧ accessTaken withSchedule.params.bufcap .reg 0x008 4 = true ∧
      (0x008 ≤ 0x008 ∧ 0x008 + 4 ≤ 0x010) ∧ accessTaken withSchedule.params.bufcap .reg 0x008 8 = true ∧
      (0x008 ≤ 0x008 ∧ 0x008 + 8 ≤ 0x010) ∧ accessTaken withSchedule.params.bufcap .reg 0x040 8 = true ∧
      (0x040 ≤ 0x040 ∧ 0x040 + 8 ≤ 0x050) ∧ accessTaken withSchedule.params.bufcap .reg 0x04F 1 = true ∧
      (0x040 ≤ 0x04F ∧ 0x04F + 1 ≤ 0x050) := by decide

theorem witness_CounterBlockLayout :
    2 ^ 64 - 1 < 2 ^ 64 ∧ 0 < 2 ^ 64 ∧ counterBlock (2 ^ 64 - 1) 0 = some (counterLayout (2 ^ 64 - 1)) := by
  decide +kernel

/-- The largest sum that fits, and the smallest that does not. -/
theorem witness_CounterBlockOverflow :
    (2 ^ 64 - 1) + 0 < 2 ^ 64 ∧ 2 ^ 64 - 1 < (2 ^ 64 - 1) + 1 ∧ counterBlock (2 ^ 64 - 1) 1 = none := by decide

theorem witness_CtrblkDerivesBlock :
    let fits : State := { State.reset with ictr := 0xfffffffffffffffe, blkidx := 1 }
    let tooBig : State := { State.reset with ictr := 0xfffffffffffffffe, blkidx := 2 }
    fits.blkidx.toNat ≤ 2 ^ 64 - 1 - fits.ictr.toNat ∧ 2 ^ 64 - 1 - tooBig.ictr.toNat < tooBig.blkidx.toNat := by decide

theorem witness_CtrblkFrame : ∃ t, exec .ctrblk loaded = .next t := ⟨_, exec_after _ _⟩

theorem witness_KeystreamBlocksDistinct :
    (2 ^ 64 - 2) + 0 < 2 ^ 64 ∧ (2 ^ 64 - 2) + 1 < 2 ^ 64 ∧ (0 : Nat) ≠ 1 := by decide

/-- One block with the largest counter value (P6), and a LEN of exactly BUFCAP. -/
theorem witness_ProcessEncryptsData :
    let p6 : State := { loaded with len := 16, ictr := 0xffffffffffffffff }
    let full : State := { loaded with len := 4096 }
    (p6.keylen = 16 ∧ 0 < p6.len.toNat ∧ p6.len.toNat ≤ p6.params.bufcap ∧
      p6.ictr.toNat + (p6.len.toNat + 15) / 16 ≤ 2 ^ 64) ∧
    full.keylen = 16 ∧ 0 < full.len.toNat ∧ full.len.toNat ≤ full.params.bufcap ∧
      full.ictr.toNat + (full.len.toNat + 15) / 16 ≤ 2 ^ 64 := by decide

/-- P7. -/
theorem witness_ProcessStopsAtCounterOverflow :
    let s := seventeen 0xffffffffffffffff
    (s.keylen = 16 ∧ s.len.toNat ≤ s.params.bufcap ∧ 2 ^ 64 < s.ictr.toNat + (s.len.toNat + 15) / 16) ∧
      exec .process s = .next (after .process s) ∧ (after .process s).status.err = 2 :=
  ⟨by decide, exec_after _ _, by decide +kernel⟩

theorem witness_ProcessRefusesKeyLength : ({ loaded with keylen := 17 } : State).keylen ≠ 16 := by decide

theorem witness_ProcessRefusesLength :
    let s : State := { loaded with len := 4097 }
    s.keylen = 16 ∧ s.params.bufcap < s.len.toNat := by decide

theorem witness_ProcessEmptyInput : loaded.keylen = 16 ∧ loaded.len = 0 := by decide

theorem witness_OutlenCountsStoredBytes :
    (∃ t, exec .process oneByte = .next t) ∧ (Instr.encblk ≠ .process ∧ ∃ t, exec .encblk oneByte = .next t) ∧
      (∀ i, (pendingState 7).op ≠ encode i) ∧ ∃ t, completion (pendingState 7) = .next t := by
  refine ⟨⟨_, exec_after _ _⟩, ⟨by decide, ⟨_, exec_after _ _⟩⟩, fun i => ?_, _, rfl⟩
  cases i <;> decide

theorem witness_ProcessFrame : ∃ t, exec .process oneByte = .next t ∧ storedBytes oneByte ≤ 1 :=
  ⟨_, exec_after _ _, by decide⟩

/-- P5 and its output aa ^ c6 = 6c fed back. -/
theorem witness_ProcessIsInvolution :
    let u : State := { oneByte with din := [(0, 0x6c)] }
    exec .process oneByte = .next (after .process oneByte) ∧ (after .process oneByte).status.err = 0 ∧
      u.key = oneByte.key ∧ u.keylen = oneByte.keylen ∧ u.ictr = oneByte.ictr ∧ u.len = oneByte.len ∧
      u.params = oneByte.params ∧ ∀ a, a < oneByte.len.toNat → dinByte u a = doutByte (after .process oneByte) a :=
  ⟨exec_after _ _, by decide +kernel, rfl, rfl, rfl, rfl, rfl, by decide +kernel⟩

/-- 17 bytes split after the first block. -/
theorem witness_ProcessSplitsAtBlocks :
    let s := seventeen 0
    let u : State := { s with len := 16 }
    let v : State := { s with len := 1, ictr := 1, din := [(0, 0x5a)] }
    exec .process s = .next (after .process s) ∧ (after .process s).status.err = 0 ∧ 16 * 1 ≤ s.len.toNat ∧
      u.len.toNat = 16 * 1 ∧ (∀ a, a < 16 * 1 → dinByte u a = dinByte s a) ∧ v.ictr.toNat = s.ictr.toNat + 1 ∧
      v.len.toNat = s.len.toNat - 16 * 1 ∧ ∀ a, a < s.len.toNat - 16 * 1 → dinByte v a = dinByte s (16 * 1 + a) :=
  ⟨exec_after _ _, by decide +kernel, by decide, by decide, fun _ _ => rfl, by decide, by decide, by decide +kernel⟩

/-- Two blocks in descending order; and a message whose second block overflows. -/
theorem witness_BlockOrderIsImmaterial :
    let s := seventeen 0
    let o := seventeen 0xffffffffffffffff
    s.keylen = 16 ∧ s.len.toNat ≤ s.params.bufcap ∧
      [1, 0].Perm (List.range (min ((s.len.toNat + 15) / 16) (2 ^ 64 - s.ictr.toNat))) ∧
      exec .process s = .next (after .process s) ∧
      [0].Perm (List.range (min ((o.len.toNat + 15) / 16) (2 ^ 64 - o.ictr.toNat))) :=
  ⟨by decide, by decide, by decide, exec_after _ _, by decide⟩

/-- The same first byte, another byte behind LEN. -/
theorem witness_ProcessIgnoresDataBeyondLen :
    (∀ a, a < oneByte.len.toNat → dinByte { oneByte with din := [(0, 0xaa), (1, 0x55)] } a = dinByte oneByte a) ∧
      exec .process oneByte = .next (after .process oneByte) :=
  ⟨by decide +kernel, exec_after _ _⟩

/-- The first and the last access of REG, and of the widest kind. -/
theorem witness_HostReadReturnsBytes :
    accessTaken loaded.params.bufcap .reg 0x000 8 = true ∧ accessTaken loaded.params.bufcap .reg 0x1FF 1 = true ∧
      accessTaken loaded.params.bufcap .dout 4088 8 = true := by decide

/-- A state for the clauses that ask for BUSY = 0 and RKVALID = 1, the ends of the reserved ranges, and one with a
command pending, which the other clauses take in. -/
theorem witness_RegisterMapReads :
    withSchedule.status.busy = false ∧ withSchedule.status.rkvalid = true ∧ (pendingState 1).status.busy = true ∧
      (0x00C ≤ 0x00C ∧ 0x00F < 0x010) ∧ (0x030 ≤ 0x030 ∧ 0x03F < 0x040) ∧ (0x080 ≤ 0x080 ∧ 0x0FF < 0x100) ∧
      0x1B0 ≤ 0x1B0 ∧ 0x1FF < 0x200 := by decide

/-- The map at both ends of every range of R26. -/
theorem test_map_low :
    [0x000, 0x003, 0x004, 0x007, 0x008, 0x00B, 0x00C, 0x00F, 0x010, 0x017, 0x018, 0x01F, 0x020, 0x027].map regMap =
      [(.cmd, 0), (.cmd, 3), (.status, 0), (.status, 3), (.keylen, 0), (.keylen, 3), (.reserved, 0), (.reserved, 3),
        (.ictr, 0), (.ictr, 7), (.blkidx, 0), (.blkidx, 7), (.len, 0), (.len, 7)] := by decide

theorem test_map_high :
    [0x028, 0x02F, 0x030, 0x03F, 0x040, 0x04F, 0x050, 0x05F, 0x060, 0x06F, 0x070, 0x07F, 0x080, 0x0FF, 0x100, 0x1AF,
        0x1B0, 0x1FF].map regMap =
      [(.outlen, 0), (.outlen, 7), (.reserved, 0), (.reserved, 15), (.key, 0), (.key, 15), (.blkIn, 0), (.blkIn, 15),
        (.blkOut, 0), (.blkOut, 15), (.cb, 0), (.cb, 15), (.reserved, 0), (.reserved, 127), (.rk, 0), (.rk, 175),
        (.reserved, 0), (.reserved, 79)] := by decide

theorem witness_UnspecifiedReadsAreFree :
    (pendingState 1).status.busy = true ∧ loaded.status.rkvalid = false ∧ 0 < 8 ∧ 7 < 8 ∧ 0 < 16 ∧ 15 < 16 ∧
      1 ≤ 1 ∧ 3 < 4 ∧ 0 < 176 ∧ 175 < 176 := by decide

/-- A write to each writable range at its first and last byte, one to a read-only register, one beside CMD. -/
theorem witness_HostWriteStoresBytes :
    loaded.status.busy = false ∧ accessTaken loaded.params.bufcap .reg 0x008 4 = true ∧ ¬(Win.reg = .reg ∧ 0x008 = 0) ∧
      hostWritable .reg 0x008 ∧ hostWritable .reg 0x00B ∧ ¬hostWritable .reg 0x00C ∧ hostWritable .reg 0x010 ∧
      hostWritable .reg 0x027 ∧ ¬hostWritable .reg 0x028 ∧ hostWritable .reg 0x040 ∧ hostWritable .reg 0x05F ∧
      ¬hostWritable .reg 0x060 ∧ accessTaken loaded.params.bufcap .reg 0x004 4 = true ∧
      accessTaken loaded.params.bufcap .din 0 8 = true ∧ hostWritable .din 0 ∧ ¬hostWritable .dout 0 := by
  simp [loaded, State.reset, accessTaken, accessWidth, Win.size, Config.regSize, hostWritable]

theorem witness_WriteToCmdIssues :
    loaded.status.busy = false ∧ accessTaken loaded.params.bufcap .reg 0x000 1 = true ∧
      accessTaken loaded.params.bufcap .reg 0x000 8 = true ∧ (Win.reg = .reg ∧ 0x000 = 0) ∧
      accessTaken loaded.params.bufcap .reg 0x002 2 = true ∧ ¬(Win.reg = .reg ∧ 0x002 = 0) := by decide

theorem witness_WritesWhileBusyDropped :
    (pendingState 1).status.busy = true ∧ accessTaken (pendingState 1).params.bufcap .reg 0x000 4 = true := by decide

/-- One access for each ground of refusal, at the edge: width 3, offset 2 for 4 bytes, the first offset outside. -/
theorem witness_RefusedAccessChangesNothing :
    3 ∉ [1, 2, 4, 8] ∧ 0x002 % 4 ≠ 0 ∧ Win.reg.size loaded.params.bufcap < 0x200 + 1 ∧
      Win.din.size loaded.params.bufcap < 4096 + 1 := by decide

theorem witness_StatusWordBits : (3 ≤ 3 ∧ 3 < 8) ∧ (3 ≤ 7 ∧ 7 < 8) ∧ (16 ≤ 16 ∧ 16 < 32) ∧ 16 ≤ 31 ∧ 31 < 32 := by
  decide

theorem witness_ResetValues : 0 < 16 ∧ 15 < 16 := by decide

theorem legal_pending : Legal (pendingState 1) where
  params := by decide
  status := ⟨by decide, by decide, fun _ => rfl⟩
  din := ⟨List.Pairwise.nil, by intro c hc; cases hc⟩
  dout := ⟨List.Pairwise.nil, by intro c hc; cases hc⟩
  outlen := by decide

theorem witness_StepKeepsLegal : Legal (pendingState 1) ∧ ∃ t, step (pendingState 1) = .next t :=
  ⟨legal_pending, _, exec_after .expand (pendingState 1)⟩

/-- ENCBLK pending over the schedule of V1's key. -/
def scheduled : State :=
  { pendingState 2 with
    rk := roundKeys keyV1
    status := { busy := true, done := false, rkvalid := true, err := 0 } }

theorem witness_StepKeepsScheduleLegal : ScheduleLegal scheduled ∧ ∃ t, step scheduled = .next t :=
  ⟨fun _ => ⟨keyV1, rfl⟩, _, exec_after .encblk scheduled⟩

theorem witness_ParametersNeverChange : ∃ t, step (pendingState 3) = .next t := ⟨_, exec_after .ctrblk (pendingState 3)⟩

/-- EXPAND sets RKVALID, on an empty agenda and on its turn; RST clears it. -/
theorem witness_OnlyExpansionChangesSchedule :
    (∃ t, step (pendingState 1) = .next t ∧ t.status.rkvalid ≠ (pendingState 1).status.rkvalid) ∧
      (∃ t, step { pendingState 1 with agenda := [.sequencer] } = .next t ∧
        t.status.rkvalid ≠ (pendingState 1).status.rkvalid) ∧
      ∃ t, step { withSchedule with agenda := [.rst] } = .next t ∧ t.status.rkvalid ≠ withSchedule.status.rkvalid :=
  ⟨⟨_, exec_after .expand (pendingState 1), by decide +kernel⟩,
    ⟨_, exec_after .expand (pendingState 1), by decide +kernel⟩, ⟨_, rfl, by decide⟩⟩

end Sys2Proof.Tests
end

/-! Proofs about the state of the core (10_state.md): what a command, a host access and a step can do to the
fields the invariants speak of, and the statements settled from that. -/

namespace Sys2Proof.Machine

open Sys2Proof.Safety Sys2Proof.Claims

/-! ### The command word -/

/-- A word is known by its two fields (R90). -/
theorem eq_of_fields {w w' : BitVec 32} (hz : zeroField w = zeroField w') (ho : opcField w = opcField w') :
    w = w' := by
  have hz := congrArg BitVec.toNat hz
  have ho := congrArg BitVec.toNat ho
  simp only [zeroField, opcField, BitVec.extractLsb'_toNat, Nat.shiftRight_eq_div_pow] at hz ho
  apply BitVec.eq_of_toNat_eq
  omega

theorem opcField_encode_of_opcodeMap {opc : BitVec 8} {i : Instr} (h : opcodeMap opc = some i) :
    opc = opcField (encode i) := by
  unfold opcodeMap at h
  split_ifs at h with h1 h2 h3 h4 <;> cases h
  · exact h1
  · exact h2
  · exact h3
  · exact h4

/-- A word that decodes to a command is that command's word (R92, R94). -/
theorem eq_encode_of_decode {w : BitVec 32} {i : Instr} (h : decode w = .ok i) : w = encode i := by
  have encode_zeroField : zeroField (encode i) = 0 := by cases i <;> decide
  unfold decode at h
  split at h
  · cases h
  · rename_i hz
    split at h
    · rename_i j hj
      cases h
      exact eq_of_fields (by simpa [encode_zeroField] using hz) (opcField_encode_of_opcodeMap hj)
    · cases h

/-- A pending word that is none of the four completes with IllegalCommand and nothing else (R94, R169). -/
theorem completion_of_illegal {s : State} (hop : ∀ i, s.op ≠ encode i) : completion s = .next (complete 3 s) := by
  unfold completion pending
  split
  · exact absurd (eq_encode_of_decode ‹_›) (hop _)
  · rfl

/-! ### What each command does, read backwards from its next state -/

theorem exec_expand_cases {s t : State} (h : exec .expand s = .next t) :
    (s.keylen = 16 ∧ t = complete 0 (installSchedule (roundKeys s.key) s)) ∨
      (s.keylen ≠ 16 ∧ t = complete 1 (dropSchedule s)) := by
  by_cases hk : s.keylen = 16
  · cases (exec_expand_ok hk).symm.trans h; exact .inl ⟨hk, rfl⟩
  · cases (exec_expand_refused hk).symm.trans h; exact .inr ⟨hk, rfl⟩

theorem exec_encblk_cases {s t : State} (h : exec .encblk s = .next t) :
    (s.status.rkvalid = true ∧ t = complete 0 { s with blkOut := cipher s.rk s.blkIn }) ∨
      (s.status.rkvalid = false ∧ t = complete 4 s) := by
  by_cases hv : s.status.rkvalid = true
  · cases (exec_encblk_ok hv).symm.trans h; exact .inl ⟨hv, rfl⟩
  · have hv : s.status.rkvalid = false := by simpa using hv
    cases (exec_encblk_refused hv).symm.trans h; exact .inr ⟨hv, rfl⟩

theorem exec_ctrblk_cases {s t : State} (h : exec .ctrblk s = .next t) :
    (s.blkidx.toNat ≤ 2 ^ 64 - 1 - s.ictr.toNat ∧
        t = complete 0 { s with cb := counterLayout (s.ictr.toNat + s.blkidx.toNat) }) ∨
      (2 ^ 64 - 1 - s.ictr.toNat < s.blkidx.toNat ∧ t = complete 2 s) := by
  by_cases hi : s.blkidx.toNat ≤ 2 ^ 64 - 1 - s.ictr.toNat
  · cases (exec_ctrblk_ok hi).symm.trans h; exact .inl ⟨hi, rfl⟩
  · have hi := Nat.lt_of_not_le hi
    cases (exec_ctrblk_refused hi).symm.trans h; exact .inr ⟨hi, rfl⟩

/-- The state a PROCESS leaves whose checks pass and whose input is not empty (R152, R156): the blocks below
the first one whose counter value does not fit are written. -/
def streamed (s : State) : State :=
  complete (if blockCount s ≤ 2 ^ 64 - s.ictr.toNat then 0 else 2)
    { expanded s with
      dout := writeBlocks (expanded s) 0 (min (blockCount s) (2 ^ 64 - s.ictr.toNat)) s.dout
      outlen := if blockCount s ≤ 2 ^ 64 - s.ictr.toNat then s.len
                else BitVec.ofNat 64 (16 * (2 ^ 64 - s.ictr.toNat)) }

/-- PROCESS by its checks, in the order of R153. -/
theorem exec_process_cases {s t : State} (h : exec .process s = .next t) :
    (s.keylen ≠ 16 ∧ t = complete 1 { dropSchedule s with outlen := 0 }) ∨
      (s.keylen = 16 ∧ s.params.bufcap < s.len.toNat ∧ t = complete 5 { s with outlen := 0 }) ∨
      (s.keylen = 16 ∧ s.len.toNat = 0 ∧ t = complete 0 { s with outlen := 0 }) ∨
      (s.keylen = 16 ∧ 0 < s.len.toNat ∧ s.len.toNat ≤ s.params.bufcap ∧ t = streamed s) := by
  by_cases hk : s.keylen = 16
  · rcases Nat.lt_or_ge s.params.bufcap s.len.toNat with hl | hl
    · cases (execProcess_length hk hl).symm.trans h; exact .inr (.inl ⟨hk, hl, rfl⟩)
    · rcases Nat.eq_zero_or_pos s.len.toNat with h0 | h0
      · cases (execProcess_empty hk h0).symm.trans h; exact .inr (.inr (.inl ⟨hk, h0, rfl⟩))
      · cases (execProcess_blocks hk hl h0).symm.trans h; exact .inr (.inr (.inr ⟨hk, h0, hl, rfl⟩))
  · cases (execProcess_keyLength hk).symm.trans h; exact .inl ⟨hk, rfl⟩

/-! ### What each field becomes when a command completes -/

/-- No command changes the parameters or DIN (R23), and each leaves BUSY 0, DONE 1 and a code of R166. -/
theorem exec_frame {i : Instr} {s t : State} (h : exec i s = .next t) :
    t.params = s.params ∧ t.din = s.din ∧ t.status.busy = false ∧ t.status.done = true ∧ t.status.err.toNat ≤ 5 := by
  obtain ⟨_, _, _, _, _, _, _, code, he, hcode⟩ := exec_shape i s
  cases he.symm.trans h
  have hle : code.toNat ≤ 5 := by rcases hcode with rfl | rfl | rfl | rfl | rfl <;> decide
  exact ⟨rfl, rfl, rfl, rfl, hle⟩

/-- Only PROCESS writes OUTLEN and DOUT (R33, R42). -/
theorem exec_results_of_ne_process {i : Instr} {s t : State} (hi : i ≠ .process) (h : exec i s = .next t) :
    t.outlen = s.outlen ∧ t.dout = s.dout := by
  cases i with
  | expand => rcases exec_expand_cases h with ⟨-, rfl⟩ | ⟨-, rfl⟩ <;> exact ⟨rfl, rfl⟩
  | encblk => rcases exec_encblk_cases h with ⟨-, rfl⟩ | ⟨-, rfl⟩ <;> exact ⟨rfl, rfl⟩
  | ctrblk => rcases exec_ctrblk_cases h with ⟨-, rfl⟩ | ⟨-, rfl⟩ <;> exact ⟨rfl, rfl⟩
  | process => exact absurd rfl hi

/-- What a command does to the schedule: nothing, or it is EXPAND or PROCESS and leaves the schedule of KEY with
RKVALID 1, or RKVALID 0 (R38, R125). -/
theorem exec_schedule {i : Instr} {s t : State} (h : exec i s = .next t) :
    (t.rk = s.rk ∧ t.status.rkvalid = s.status.rkvalid) ∨
      ((i = .expand ∨ i = .process) ∧ (t.rk = roundKeys s.key ∨ t.status.rkvalid = false)) := by
  cases i with
  | expand =>
    rcases exec_expand_cases h with ⟨-, rfl⟩ | ⟨-, rfl⟩
    · exact .inr ⟨.inl rfl, .inl rfl⟩
    · exact .inr ⟨.inl rfl, .inr rfl⟩
  | encblk => rcases exec_encblk_cases h with ⟨-, rfl⟩ | ⟨-, rfl⟩ <;> exact .inl ⟨rfl, rfl⟩
  | ctrblk => rcases exec_ctrblk_cases h with ⟨-, rfl⟩ | ⟨-, rfl⟩ <;> exact .inl ⟨rfl, rfl⟩
  | process =>
    rcases exec_process_cases h with ⟨-, rfl⟩ | ⟨-, -, rfl⟩ | ⟨-, -, rfl⟩ | ⟨-, -, -, rfl⟩
    · exact .inr ⟨.inr rfl, .inr rfl⟩
    · exact .inl ⟨rfl, rfl⟩
    · exact .inl ⟨rfl, rfl⟩
    · exact .inr ⟨.inr rfl, .inl rfl⟩

theorem storedBytes_of_refused {s : State} (h : ¬(s.keylen = 16 ∧ s.len.toNat ≤ s.params.bufcap)) :
    storedBytes s = 0 := if_neg h

theorem storedBytes_of_accepted {s : State} (hk : s.keylen = 16) (hl : s.len.toNat ≤ s.params.bufcap) :
    storedBytes s = min s.len.toNat (16 * (2 ^ 64 - s.ictr.toNat)) := if_pos ⟨hk, hl⟩

theorem storedBytes_le_bufcap (s : State) : storedBytes s ≤ s.params.bufcap := by
  unfold storedBytes
  split
  · rename_i h
    exact Nat.le_trans (Nat.min_le_left _ _) h.2
  · exact Nat.zero_le _

/-- OUTLEN after the block loop: LEN when every counter value fits, else the blocks below the first that does
not, which are fewer bytes than LEN and so a 64-bit number. -/
theorem streamed_outlen (s : State) :
    (streamed s).outlen.toNat = min s.len.toNat (16 * (2 ^ 64 - s.ictr.toNat)) := by
  have hlen := s.len.isLt
  have hcount : blockCount s = (s.len.toNat + 15) / 16 := rfl
  simp only [streamed, complete_outlen]
  split
  · omega
  · rw [BitVec.toNat_ofNat]
    omega

/-- OUTLEN after PROCESS is the number of bytes it stored (R33). -/
theorem process_outlen {s t : State} (h : exec .process s = .next t) : t.outlen.toNat = storedBytes s := by
  rcases exec_process_cases h with ⟨hk, rfl⟩ | ⟨-, hl, rfl⟩ | ⟨hk, h0, rfl⟩ | ⟨hk, -, hl, rfl⟩
  · exact (storedBytes_of_refused fun hc => hk hc.1).symm
  · exact (storedBytes_of_refused fun hc => Nat.not_lt.mpr hc.2 hl).symm
  · simp [storedBytes_of_accepted hk (h0 ▸ Nat.zero_le _), h0]
  · rw [streamed_outlen, storedBytes_of_accepted hk hl]

/-- PROCESS keeps DOUT in canonical form and inside BUFCAP (R40, R70). -/
theorem process_dout_legal {s t : State} (hs : BufferLegal s.params.bufcap s.dout) (h : exec .process s = .next t) :
    BufferLegal s.params.bufcap t.dout := by
  rcases exec_process_cases h with ⟨-, rfl⟩ | ⟨-, -, rfl⟩ | ⟨-, -, rfl⟩ | ⟨-, h0, hl, rfl⟩
  · exact hs
  · exact hs
  · exact hs
  · have hcount : blockCount s = (s.len.toNat + 15) / 16 := rfl
    obtain ⟨hwf, hbelow⟩ := hs
    refine ⟨writeBlocks_wf _ _ _ hwf, writeBlocks_below (expanded s) hl _ _ hbelow ?_⟩
    simp only [installSchedule_len]
    omega

/-! ### What a host access leaves unchanged -/

/-- No host access writes OUTLEN, DOUT, RK or the parameters (R64), and it changes STATUS only by issuing a
command while BUSY is 0 (R65). -/
theorem hostAccess_frame (a : Access) (s : State) :
    (hostAccess a s).outlen = s.outlen ∧ (hostAccess a s).dout = s.dout ∧ (hostAccess a s).rk = s.rk ∧
      (hostAccess a s).params = s.params ∧
      ((hostAccess a s).status = s.status ∨ (hostAccess a s).status = issuedStatus s.status) := by
  rcases hostAccess_cases a s with ⟨_, _, h⟩ | ⟨-, win, off, n, v, -, -, ⟨-, h⟩ | ⟨-, h⟩⟩
  · rw [h]
    exact ⟨rfl, rfl, rfl, rfl, .inl rfl⟩
  · obtain ⟨_, _, _, _, _, _, _, hw⟩ := writeBytes_fields win off v n s
    rw [h, hw]
    exact ⟨rfl, rfl, rfl, rfl, .inr rfl⟩
  · obtain ⟨_, _, _, _, _, _, _, hw⟩ := writeBytes_fields win off v n s
    rw [h, hw]
    exact ⟨rfl, rfl, rfl, rfl, .inl rfl⟩

theorem hostAccess_rkvalid (a : Access) (s : State) : (hostAccess a s).status.rkvalid = s.status.rkvalid := by
  obtain ⟨-, -, -, -, hst | hst⟩ := hostAccess_frame a s <;> rw [hst]
  rfl

/-- A host access keeps DIN in canonical form and inside BUFCAP: a taken write lies in its window (R40, R67). -/
theorem hostAccess_din_legal (a : Access) {s : State} (hs : BufferLegal s.params.bufcap s.din) :
    BufferLegal s.params.bufcap (hostAccess a s).din := by
  rcases hostAccess_cases a s with ⟨_, _, h⟩ | ⟨-, win, off, n, v, -, htaken, hw⟩
  · rw [h]
    exact hs
  · obtain ⟨-, -, hbound⟩ := (accessTaken_iff _ _ _ _).mp htaken
    have hdin := writeBytes_din win off v n s hs fun hwin => by subst hwin; exact hbound
    rcases hw with ⟨-, h⟩ | ⟨-, h⟩ <;> rw [h] <;> exact hdin

/-! ### Invariants of a step -/

/-- What the agenda does not matter to, and every command, every illegal word's completion, every host access and
the reset keep, every step keeps. -/
theorem step_preserves {P : State → Prop} (agenda : ∀ s rest, P s → P { s with agenda := rest })
    (command : ∀ i s t, P s → exec i s = .next t → P t) (illegal : ∀ s, P s → P (complete 3 s))
    (access : ∀ a s, P s → P (hostAccess a s)) (reset : ∀ s, P s → P (resetCore s))
    {s t : State} (hs : P s) (h : step s = .next t) : P t := by
  have turn : ∀ u, P u → sequencerTurn u = .next t → P t := by
    intro u hu hturn
    rcases sequencerTurn_cases hturn with ⟨-, rfl⟩ | ⟨-, ⟨i, -, hexec⟩ | ⟨-, rfl⟩⟩
    · exact hu
    · exact command i u t hu hexec
    · exact illegal u hu
  rcases step_cases h with ⟨-, hturn⟩ | ⟨rest, ⟨-, hturn⟩ | ⟨a, -, rfl⟩ | ⟨-, rfl⟩⟩
  · exact turn s hs hturn
  · exact turn _ (agenda s rest hs) hturn
  · exact access a _ (agenda s rest hs)
  · exact reset _ (agenda s rest hs)

theorem statusLegal_of_completed {st : Status} (hb : st.busy = false) (hd : st.done = true) (he : st.err.toNat ≤ 5) :
    StatusLegal st := ⟨by simp [hb], he, by simp [hd]⟩

theorem statusLegal_issued (st : Status) : StatusLegal (issuedStatus st) := ⟨by simp, by simp, by simp⟩

theorem exec_keeps_legal {i : Instr} {s t : State} (hs : Legal s) (h : exec i s = .next t) : Legal t := by
  obtain ⟨hparams, hdin, hbusy, hdone, herr⟩ := exec_frame h
  have hresults : BufferLegal s.params.bufcap t.dout ∧ t.outlen.toNat ≤ s.params.bufcap := by
    by_cases hi : i = .process
    · subst hi
      exact ⟨process_dout_legal hs.dout h, process_outlen h ▸ storedBytes_le_bufcap s⟩
    · obtain ⟨houtlen, hdout⟩ := exec_results_of_ne_process hi h
      exact ⟨hdout ▸ hs.dout, houtlen ▸ hs.outlen⟩
  obtain ⟨hdout, houtlen⟩ := hresults
  rw [← hparams] at hdout houtlen
  exact ⟨hparams ▸ hs.params, statusLegal_of_completed hbusy hdone herr, hdin ▸ hparams ▸ hs.din, hdout, houtlen⟩

theorem hostAccess_keeps_legal (a : Access) {s : State} (hs : Legal s) : Legal (hostAccess a s) := by
  obtain ⟨houtlen, hdout, -, hparams, hstatus⟩ := hostAccess_frame a s
  constructor
  case params => exact hparams ▸ hs.params
  case status =>
    rcases hstatus with hst | hst <;> rw [hst]
    · exact hs.status
    · exact statusLegal_issued _
  case din => exact hparams ▸ hostAccess_din_legal a hs.din
  case dout => rw [hdout, hparams]; exact hs.dout
  case outlen => rw [houtlen, hparams]; exact hs.outlen

/-- The reset core is legal under every legal choice of the parameters (R46, R191). -/
theorem resetCore_legal {s : State} (h : s.params.wellFormed = true) : Legal (resetCore s) where
  params := h
  status := ⟨by simp [resetCore, State.reset], by simp [resetCore, State.reset], fun _ => rfl⟩
  din := ⟨List.Pairwise.nil, List.forall_mem_nil _⟩
  dout := ⟨List.Pairwise.nil, List.forall_mem_nil _⟩
  outlen := Nat.zero_le _

theorem step_keeps_legal {s t : State} (hs : Legal s) (h : step s = .next t) : Legal t := by
  refine step_preserves (P := Legal) ?agenda ?command ?illegal ?access ?reset hs h
  case agenda => exact fun _ _ ⟨hp, hst, hdin, hdout, ho⟩ => ⟨hp, hst, hdin, hdout, ho⟩
  case command => exact fun _ _ _ => exec_keeps_legal
  case illegal =>
    exact fun _ ⟨hp, _, hdin, hdout, ho⟩ => ⟨hp, statusLegal_of_completed rfl rfl (by simp), hdin, hdout, ho⟩
  case access => exact fun a _ => hostAccess_keeps_legal a
  case reset => exact fun _ hl => resetCore_legal hl.params

theorem exec_keeps_scheduleLegal {i : Instr} {s t : State} (hs : ScheduleLegal s) (h : exec i s = .next t) :
    ScheduleLegal t := by
  rcases exec_schedule h with ⟨hrk, hvalid⟩ | ⟨-, hrk | hvalid⟩ <;> intro ht
  · rw [hrk]
    exact hs (hvalid ▸ ht)
  · exact ⟨s.key, hrk⟩
  · simp [hvalid] at ht

theorem resetCore_scheduleLegal (s : State) : ScheduleLegal (resetCore s) := nofun

theorem step_keeps_scheduleLegal {s t : State} (hs : ScheduleLegal s) (h : step s = .next t) : ScheduleLegal t := by
  refine step_preserves (P := ScheduleLegal) ?agenda ?command ?illegal ?access ?reset hs h
  case agenda => exact fun _ _ hl => hl
  case command => exact fun _ _ _ => exec_keeps_scheduleLegal
  case illegal => exact fun _ hl => hl
  case access =>
    intro a u hu hvalid
    obtain ⟨-, -, hrk, -, -⟩ := hostAccess_frame a u
    rw [hrk]
    exact hu (hostAccess_rkvalid a u ▸ hvalid)
  case reset => exact fun u _ => resetCore_scheduleLegal u

theorem step_params {s t : State} (h : step s = .next t) : t.params = s.params := by
  refine step_preserves (P := fun u => u.params = s.params) ?agenda ?command ?illegal ?access ?reset rfl h
  case agenda => exact fun _ _ hp => hp
  case command =>
    intro i u v hp hexec
    obtain ⟨hkept, -⟩ := exec_frame hexec
    exact hkept.trans hp
  case illegal => exact fun _ hp => hp
  case access =>
    intro a u hp
    obtain ⟨-, -, -, hkept, -⟩ := hostAccess_frame a u
    exact hkept.trans hp
  case reset => exact fun _ hp => hp

/-- A turn of the sequencer that changes the schedule completes a pending EXPAND or PROCESS (R38, R97). -/
theorem sequencerTurn_changes_schedule {s t : State} (h : sequencerTurn s = .next t)
    (hne : t.rk ≠ s.rk ∨ t.status.rkvalid ≠ s.status.rkvalid) :
    s.status.busy = true ∧ (s.op = encode .expand ∨ s.op = encode .process) ∧ t.status.busy = false ∧
      t.status.done = true := by
  rcases sequencerTurn_cases h with ⟨-, rfl⟩ | ⟨hbusy, ⟨i, hdecode, hexec⟩ | ⟨-, rfl⟩⟩
  · simp at hne
  · obtain ⟨-, -, hidle, hdone, -⟩ := exec_frame hexec
    have hop := eq_encode_of_decode hdecode
    rcases exec_schedule hexec with ⟨hrk, hvalid⟩ | ⟨rfl | rfl, -⟩
    · simp [hrk, hvalid] at hne
    · exact ⟨hbusy, .inl hop, hidle, hdone⟩
    · exact ⟨hbusy, .inr hop, hidle, hdone⟩
  · simp at hne

/-! ### DIN beyond LEN -/

/-- The output of a block reads DIN below LEN only (R32, R70). -/
theorem blockOutput_congr {s s' : State} (hlen : s'.len = s.len)
    (hdin : ∀ a, a < s.len.toNat → dinByte s' a = dinByte s a) (i : Nat) (ks : Bytes 16) :
    blockOutput s' i ks = blockOutput s i ks := by
  have hslice : sliceLength s' i = sliceLength s i := by rw [sliceLength, sliceLength, hlen]
  have hread : dinRead s' (16 * i) (sliceLength s i) = dinRead s (16 * i) (sliceLength s i) := by
    refine List.map_congr_left fun j hj => hdin _ ?_
    have hj := List.mem_range.mp hj
    unfold sliceLength at hj
    omega
  rw [blockOutput, blockOutput, hslice, hread]

theorem streamed_din {s : State} {d : Memory}
    (hdin : ∀ a, a < s.len.toNat → dinByte { s with din := d } a = dinByte s a) :
    streamed { s with din := d } = { streamed s with din := d } := by
  have hblocks : ∀ n m, writeBlocks (expanded { s with din := d }) 0 n m = writeBlocks (expanded s) 0 n m :=
    fun n m => writeBlocks_congr
      (blockOutput_congr (s := expanded s) (s' := expanded { s with din := d }) rfl hdin) (fun _ => rfl) n 0 m
  unfold streamed
  rw [hblocks]
  rfl

theorem process_din_congr {s t : State} {d : Memory}
    (hdin : ∀ a, a < s.len.toNat → dinByte { s with din := d } a = dinByte s a) (h : exec .process s = .next t) :
    exec .process { s with din := d } = .next { t with din := d } := by
  rcases exec_process_cases h with ⟨hk, rfl⟩ | ⟨hk, hl, rfl⟩ | ⟨hk, h0, rfl⟩ | ⟨hk, h0, hl, rfl⟩
  · exact execProcess_keyLength (s := { s with din := d }) hk
  · exact execProcess_length (s := { s with din := d }) hk hl
  · exact execProcess_empty (s := { s with din := d }) hk h0
  · rw [← streamed_din hdin]
    exact execProcess_blocks (s := { s with din := d }) hk hl h0

/-! ### What a read of the REG window sees -/

/-- A byte of a register is read at the register's base plus its index (R26). -/
theorem readByte_reg (free : Byte) (s : State) {l : Loc} (hl : l ≠ .reserved) {k : Nat} (hk : k < locSize l) :
    readByte free s .reg (locBase l + k) = readLoc free s l k := by
  rw [readByte, regMap_base hl hk]

/-- Reserved offsets read as 0 (R63, R73). -/
theorem readByte_reserved (free : Byte) (s : State) {a : Nat} (h : (regMap a).1 = .reserved) :
    readByte free s .reg a = 0 := by
  rw [readByte, h, readLoc]

/-- The STATUS word bit by bit (R28). -/
theorem getLsbD_statusWord (st : Status) (k : Nat) :
    (statusWord st).getLsbD k =
      if k = 0 then st.busy else if k = 1 then st.done else if k = 2 then st.rkvalid
      else if 8 ≤ k then st.err.getLsbD (k - 8) else false := by
  change BitVec.getLsbD (w := 16 + 8 + 5 + 1 + 1 + 1) _ k = _
  unfold statusWord
  simp only [BitVec.getLsbD_append, BitVec.getLsbD_ofBool]
  rcases k with _ | _ | _ | k
  · rfl
  · rfl
  · rfl
  · have hsub : k + 1 + 1 + 1 - 8 = k - 5 := by omega
    by_cases h5 : k < 5
    · have h8 : ¬ 8 ≤ k + 1 + 1 + 1 := by omega
      simp [h5, h8]
    · have h8 : 8 ≤ k + 1 + 1 + 1 := by omega
      simpa [h5, h8, hsub] using BitVec.lt_of_getLsbD (x := st.err) (i := k - 5)

end Sys2Proof.Machine

namespace Sys2Proof.StateProofs

open Sys2Proof.Machine Sys2Proof.Safety Sys2Proof.Claims

/-- Settles O56: legality is kept by every command, host access and reset. -/
theorem stepKeepsLegal : Obligations.StepKeepsLegal := fun _ _ => step_keeps_legal

/-- Settles O57: only EXPAND and PROCESS touch the schedule, and they leave RK the schedule of KEY or RKVALID 0. -/
theorem stepKeepsScheduleLegal : Obligations.StepKeepsScheduleLegal := fun _ _ => step_keeps_scheduleLegal

/-- Settles O40, clause by clause: PROCESS, the other commands, illegal words, host accesses. -/
theorem outlenCountsStoredBytes : Obligations.OutlenCountsStoredBytes := by
  refine ⟨fun _ _ => process_outlen, fun i s t hi h => ?command, fun s t hop h => ?illegal, fun a s => ?access⟩
  case command => exact (exec_results_of_ne_process hi h).1
  case illegal =>
    cases (completion_of_illegal hop).symm.trans h
    rfl
  case access => exact (hostAccess_frame a s).1

/-- Settles O45: the block loop reads DIN below LEN only, and no check reads it. -/
theorem processIgnoresDataBeyondLen : Obligations.ProcessIgnoresDataBeyondLen := fun _ _ _ => process_din_congr

/-- Settles O47, each range of the map by its register's base. -/
theorem registerMapReads : Obligations.RegisterMapReads := by
  intro s free
  refine ⟨fun k hk => ⟨?cmd, ?keylen⟩, fun k hk => ⟨?ictr, ?blkidx, ?len⟩, fun k hk => ⟨?key, ?blkIn⟩,
    fun a ha => ?reserved, fun a => rfl,
    fun hbusy => ⟨fun k hk => ?status, fun k hk => ?outlen, fun k hk => ⟨?blkOut, ?cb⟩, fun hvalid k hk => ?rk,
      fun a => ?dout⟩⟩
  case cmd => exact readByte_reg free s (l := .cmd) (by simp) hk
  case keylen => exact readByte_reg free s (l := .keylen) (by simp) hk
  case ictr => exact readByte_reg free s (l := .ictr) (by simp) hk
  case blkidx => exact readByte_reg free s (l := .blkidx) (by simp) hk
  case len => exact readByte_reg free s (l := .len) (by simp) hk
  case key => exact (readByte_reg free s (l := .key) (by simp) hk).trans (byteAt_lt _ hk)
  case blkIn => exact (readByte_reg free s (l := .blkIn) (by simp) hk).trans (byteAt_lt _ hk)
  case reserved => exact readByte_reserved free s (regMap_reserved (by omega))
  case status =>
    refine (readByte_reg free s (l := .status) (by simp) hk).trans ?_
    simp [readLoc, statusByte, hbusy, lane]
  case outlen =>
    refine (readByte_reg free s (l := .outlen) (by simp) hk).trans ?_
    simp [readLoc, hbusy, lane]
  case blkOut =>
    refine (readByte_reg free s (l := .blkOut) (by simp) hk).trans ?_
    simp [readLoc, hbusy, byteAt_lt, hk]
  case cb =>
    refine (readByte_reg free s (l := .cb) (by simp) hk).trans ?_
    simp [readLoc, hbusy, byteAt_lt, hk]
  case rk =>
    refine (readByte_reg free s (l := .rk) (by simp) hk).trans ?_
    simp [readLoc, hbusy, hvalid, byteAt_lt, hk]
  case dout => simp [readByte, hbusy]

/-- Settles O59: no command, host access or reset changes the parameters. -/
theorem parametersNeverChange : Obligations.ParametersNeverChange := fun _ _ => step_params

/-- Settles O60, by the kinds of step: only a turn of the sequencer and a reset reach the schedule. -/
theorem onlyExpansionChangesSchedule : Obligations.OnlyExpansionChangesSchedule := by
  intro s t h hne
  rcases step_cases h with ⟨hagenda, hturn⟩ | ⟨rest, ⟨hagenda, hturn⟩ | ⟨a, -, rfl⟩ | ⟨hagenda, -⟩⟩
  · exact .inr ⟨.inl hagenda, sequencerTurn_changes_schedule hturn hne⟩
  · exact .inr ⟨.inr ⟨rest, hagenda⟩, sequencerTurn_changes_schedule (s := { s with agenda := rest }) hturn hne⟩
  · obtain ⟨-, -, hrk, -, -⟩ := hostAccess_frame a { s with agenda := rest }
    simp [hrk, hostAccess_rkvalid] at hne
  · exact .inl ⟨rest, hagenda⟩

/-- Settles O53: each bit is found in its place of the concatenation. -/
theorem statusWordBits : Obligations.StatusWordBits := by
  intro st
  refine ⟨?busy, ?done, ?rkvalid, ?err, fun k hk => ?reserved⟩
  case busy => exact getLsbD_statusWord st 0
  case done => exact getLsbD_statusWord st 1
  case rkvalid => exact getLsbD_statusWord st 2
  case err =>
    refine BitVec.eq_of_getLsbD_eq fun k hk => ?_
    rw [BitVec.getLsbD_extractLsb', getLsbD_statusWord]
    have h1 : 8 + k ≠ 1 := by omega
    have h2 : 8 + k ≠ 2 := by omega
    simp [hk, h1, h2]
  case reserved =>
    rw [getLsbD_statusWord, if_neg (by omega), if_neg (by omega), if_neg (by omega)]
    split
    · exact BitVec.getLsbD_of_ge _ _ (by omega)
    · rfl

/-- Settles O54: the fields of the reset state, and the zero bytes of its four arrays. -/
theorem resetValues : Obligations.ResetValues := by
  refine ⟨rfl, rfl, rfl, rfl, rfl, rfl, fun k hk => ?_⟩
  have hzero : byteAt (Vector.replicate 16 (0 : Byte)) k = 0 := by simp [byteAt_lt _ hk]
  exact ⟨hzero, hzero, hzero, hzero⟩

/-- Settles O58: the reset state is a reset core but for the reset counter, and its parameters are legal. -/
theorem resetIsLegal : Obligations.ResetIsLegal := by
  have hparams : State.reset.params.wellFormed = true := by decide
  obtain ⟨hp, hstatus, hdin, hdout, houtlen⟩ := resetCore_legal hparams
  exact ⟨⟨hp, hstatus, hdin, hdout, houtlen⟩, resetCore_scheduleLegal State.reset⟩

end Sys2Proof.StateProofs

/-! Proofs about the host bus (20_memory.md) and the command it issues: one equation for each way an access can
go, what a write leaves as it was, and the statements settled from that. -/

namespace Sys2Proof.Machine

open Sys2Proof.Safety Sys2Proof.Claims

/-! ### The access a step takes, one equation for each way it can go -/

theorem stepWith_read_taken {s : State} {win : Win} {off n : Nat} (rest : List Event)
    (h : accessTaken s.params.bufcap win off n = true) :
    stepWith s (.access (.read win off n)) rest = .next (hostRead win off n { s with agenda := rest }) :=
  congrArg Host.Outcome.next (if_pos h)

theorem stepWith_read_refused {s : State} {win : Win} {off n : Nat} (rest : List Event)
    (h : accessTaken s.params.bufcap win off n = false) :
    stepWith s (.access (.read win off n)) rest = .next
      { s with agenda := rest, replies := .readError (ofLanes 64 (Config.freeByte s.draws) 8) :: s.replies,
               draws := s.draws + 1 } :=
  congrArg Host.Outcome.next (if_neg (by simp [h]))

theorem stepWith_write_taken {s : State} {win : Win} {off n : Nat} (v : BitVec 64) (rest : List Event)
    (h : accessTaken s.params.bufcap win off n = true) :
    stepWith s (.access (.write win off n v)) rest = .next (hostWrite win off n v { s with agenda := rest }) :=
  congrArg Host.Outcome.next (if_pos h)

theorem stepWith_write_refused {s : State} {win : Win} {off n : Nat} (v : BitVec 64) (rest : List Event)
    (h : accessTaken s.params.bufcap win off n = false) :
    stepWith s (.access (.write win off n v)) rest = .next (reply .writeError { s with agenda := rest }) :=
  congrArg Host.Outcome.next (if_neg (by simp [h]))

theorem coversCmd_iff (win : Win) (off : Nat) : coversCmd win off = true ↔ win = .reg ∧ off = 0 := by
  simp [coversCmd]

theorem hostWrite_of_busy (win : Win) (off n : Nat) (v : BitVec 64) {s : State} (h : s.status.busy = true) :
    hostWrite win off n v s = reply .ack s := if_pos h

theorem hostWrite_covers_cmd (n : Nat) (v : BitVec 64) {s : State} (h : s.status.busy = false) :
    hostWrite .reg 0 n v s = reply .ack (issue (commandWord n v) (writeBytes .reg 0 v n s)) := by
  rw [hostWrite, if_neg (by simp [h]), if_pos ((coversCmd_iff _ _).mpr ⟨rfl, rfl⟩)]

theorem hostWrite_beside_cmd {win : Win} {off : Nat} (n : Nat) (v : BitVec 64) {s : State}
    (h : s.status.busy = false) (hcmd : ¬(win = .reg ∧ off = 0)) :
    hostWrite win off n v s = reply .ack (writeBytes win off v n s) := by
  rw [hostWrite, if_neg (by simp [h]), if_neg (mt (coversCmd_iff _ _).mp hcmd)]

/-- The widest access has 8 bytes (R63, R64). -/
theorem width_le_of_taken {cap : Nat} {win : Win} {off n : Nat} (h : accessTaken cap win off n = true) : n ≤ 8 := by
  obtain ⟨hwidth, -, -⟩ := (accessTaken_iff _ _ _ _).mp h
  have hall : ∀ m ∈ [1, 2, 4, 8], m ≤ 8 := by decide
  exact hall n hwidth

/-- Wrong width, misaligned or out of the window is refused (R66, R67, R68). -/
theorem accessTaken_eq_false {cap : Nat} {win : Win} {off n : Nat}
    (h : n ∉ [1, 2, 4, 8] ∨ off % n ≠ 0 ∨ win.size cap < off + n) : accessTaken cap win off n = false := by
  rw [Bool.eq_false_iff, ne_eq, accessTaken_iff]
  rintro ⟨hwidth, halign, hbound⟩
  rcases h with h | h | h
  · exact h hwidth
  · exact h halign
  · exact Nat.not_le.mpr h hbound

/-! ### Reads depend on the core's own state only -/

theorem readByte_agenda (free : Byte) (s : State) (rest : List Event) (win : Win) (a : Nat) :
    readByte free { s with agenda := rest } win a = readByte free s win a := rfl

theorem readByte_reply (free : Byte) (r : Reply) (s : State) (win : Win) (a : Nat) :
    readByte free (reply r s) win a = readByte free s win a := rfl

/-! ### What a host write stores -/

/-- The locations a host write reaches, by the register that stands at the offset (R26, R64). -/
theorem hostWritable_iff (win : Win) (a : Nat) :
    hostWritable win a ↔ win = .din ∨ (win = .reg ∧ locWritable (regMap a).1 = true) := by
  cases win with
  | reg => simpa using hostWritable_reg a
  | din => simp [hostWritable]
  | dout => simp [hostWritable]

theorem writeLoc_of_not_writable {l : Loc} (h : locWritable l = false) (k : Nat) (b : Byte) (s : State) :
    writeLoc l k b s = s := by
  cases l <;> simp [locWritable, writeLoc] at h ⊢

/-- A byte written where the host may not write is dropped (R64). -/
theorem writeByte_of_not_writable {win : Win} {a : Nat} (h : ¬hostWritable win a) (b : Byte) (s : State) :
    writeByte win a b s = s := by
  cases win with
  | reg => exact writeLoc_of_not_writable (by simpa [hostWritable_reg] using h) _ _ _
  | din => exact absurd trivial h
  | dout => rfl

theorem writeBytes_of_not_writable {win : Win} {off n : Nat} (h : ∀ k, k < n → ¬hostWritable win (off + k))
    (v : BitVec 64) (s : State) : writeBytes win off v n s = s := by
  induction n with
  | zero => rfl
  | succ n ih =>
    rw [writeBytes, ih fun k hk => h k (by omega), writeByte_of_not_writable (h n (by omega))]

/-- The bytes a write that covers CMD can reach, CMD and STATUS, store nothing by themselves (R26, R65). -/
theorem writeBytes_cmd {n : Nat} (h : n ≤ 8) (v : BitVec 64) (s : State) : writeBytes .reg 0 v n s = s := by
  refine writeBytes_of_not_writable (fun k hk => ?_) v s
  simp only [hostWritable]
  omega

theorem readByte_writeBytes_stored (free : Byte) (s : State) {win : Win} {off n k : Nat} (v : BitVec 64) (hk : k < n)
    (hw : hostWritable win (off + k)) : readByte free (writeBytes win off v n s) win (off + k) = lane v k := by
  rw [readByte_writeBytes, if_pos ⟨rfl, by omega, by omega, (hostWritable_iff _ _).mp hw⟩, Nat.add_sub_cancel_left]

theorem readByte_writeBytes_kept (free : Byte) (s : State) {win w : Win} {off n a : Nat} (v : BitVec 64)
    (h : ¬(w = win ∧ off ≤ a ∧ a < off + n ∧ hostWritable w a)) :
    readByte free (writeBytes win off v n s) w a = readByte free s w a := by
  rw [readByte_writeBytes, if_neg]
  rintro ⟨rfl, hle, hlt, hw⟩
  exact h ⟨rfl, hle, hlt, (hostWritable_iff _ _).mpr hw⟩

/-! ### A host write, as one step -/

theorem stepWith_write_cmd {s : State} {n : Nat} (v : BitVec 64) (rest : List Event)
    (hbusy : s.status.busy = false) (ht : accessTaken s.params.bufcap .reg 0 n = true) :
    stepWith s (.access (.write .reg 0 n v)) rest =
      .next (reply .ack (issue (commandWord n v) { s with agenda := rest })) := by
  rw [stepWith_write_taken v rest ht, hostWrite_covers_cmd n v, writeBytes_cmd (width_le_of_taken ht)]
  exact hbusy

theorem stepWith_write_store {s : State} {win : Win} {off n : Nat} (v : BitVec 64) (rest : List Event)
    (hbusy : s.status.busy = false) (ht : accessTaken s.params.bufcap win off n = true)
    (hcmd : ¬(win = .reg ∧ off = 0)) :
    stepWith s (.access (.write win off n v)) rest =
      .next (reply .ack (writeBytes win off v n { s with agenda := rest })) := by
  rw [stepWith_write_taken v rest ht, hostWrite_beside_cmd n v _ hcmd]
  exact hbusy

/-! ### What a read sees while a command is pending -/

/-- Byte 0 of STATUS while BUSY is 1: BUSY, and an RKVALID bit taken from the free byte (R28, R63). -/
theorem statusByte_zero_of_busy (free : Byte) {st : Status} (h : st.busy = true) :
    statusByte free st 0 = if free.getLsbD 2 then 0x05 else 0x01 := by
  have hbit : free &&& 0x04 = if free.getLsbD 2 then 0x04 else 0 := BitVec.and_twoPow free 2
  rw [statusByte, if_pos h, if_pos rfl, hbit]
  split <;> rfl

theorem statusByte_pos_of_busy (free : Byte) {st : Status} (h : st.busy = true) {k : Nat} (hk : 1 ≤ k) :
    statusByte free st k = 0 := by
  rw [statusByte, if_pos h, if_neg (by omega)]

/-! ### The placed command word -/

theorem decode_encode (i : Instr) : decode (encode i) = .ok i := by
  cases i <;> rfl

theorem withFetchWord_toNat (s : State) (cw : BitVec 32) : s.withFetchWord 32 cw.toNat = placeCommand cw s := by
  rw [State.withFetchWord, Nat.mod_eq_of_lt cw.isLt, BitVec.ofNat_toNat, BitVec.setWidth_eq]

/-- Whatever the agenda holds, the sequencer moves right after a word is placed. -/
theorem step_placeCommand (cw : BitVec 32) (s : State) : step (placeCommand cw s) = sequencerTurn (issue cw s) := by
  obtain ⟨_, _, _, _, _, _, _, _, _, _, _, _, _, _, _, agenda, _, _, _⟩ := s
  cases agenda <;> rfl

/-- The sequencer's turn after the issue of a command's word is that command (R97). -/
theorem sequencerTurn_issue (i : Instr) (s : State) :
    sequencerTurn (issue (encode i) s) = exec i (issue (encode i) s) := by
  rw [sequencerTurn, if_pos (by simp), completion, pending, issue_op, decode_encode]

end Sys2Proof.Machine

namespace Sys2Proof.MemoryProofs

open Sys2Proof.Machine Sys2Proof.Safety Sys2Proof.Claims

/-- Settles O46: the value is built from its lanes, and building it changes only what is the model's own. -/
theorem hostReadReturnsBytes : Obligations.HostReadReturnsBytes := by
  intro s win off n rest htaken
  have hwidth : 8 * n ≤ 64 := Nat.mul_le_mul_left 8 (width_le_of_taken htaken)
  refine ⟨readValue s win off n, ?step, ofLanes_lt _ hwidth, fun k hk => ?lane⟩
  case step => exact stepWith_read_taken rest htaken
  case lane => exact lane_ofLanes _ hwidth hk

/-- Settles O48, location by location: each is a register at its base, or DOUT. -/
theorem unspecifiedReadsAreFree : Obligations.UnspecifiedReadsAreFree := by
  intro s free
  refine ⟨fun hbusy => ⟨fun k hk => ?outlen, fun k hk => ⟨?blkOut, ?cb⟩, fun a => if_pos hbusy, ?status0,
    fun k h1 hk => ?status⟩, fun h k hk => ?rk⟩
  case outlen => exact (readByte_reg free s (l := .outlen) (by simp) hk).trans (if_pos hbusy)
  case blkOut => exact (readByte_reg free s (l := .blkOut) (by simp) hk).trans (if_pos hbusy)
  case cb => exact (readByte_reg free s (l := .cb) (by simp) hk).trans (if_pos hbusy)
  case status0 =>
    exact (readByte_reg free s (l := .status) (by simp) (by decide)).trans (statusByte_zero_of_busy free hbusy)
  case status =>
    exact (readByte_reg free s (l := .status) (by simp) hk).trans (statusByte_pos_of_busy free hbusy h1)
  case rk =>
    refine (readByte_reg free s (l := .rk) (by simp) hk).trans (if_pos ?_)
    simpa using h

/-- Settles O49: the write is its bytes stored one by one, which reach the host-writable registers and DIN only. -/
theorem hostWriteStoresBytes : Obligations.HostWriteStoresBytes := by
  intro s win off n v rest hbusy htaken hcmd
  refine ⟨_, stepWith_write_store v rest hbusy htaken hcmd, fun free k hk hw => ?stored, fun free w a h => ?kept,
    ?frame⟩
  case stored =>
    rw [readByte_reply]
    exact readByte_writeBytes_stored free _ v hk hw
  case kept => rw [readByte_reply, readByte_writeBytes_kept free _ v h, readByte_agenda]
  case frame =>
    obtain ⟨_, _, _, _, _, _, _, hfields⟩ := writeBytes_fields win off v n { s with agenda := rest }
    rw [hfields]
    rfl

/-- Settles O50: a write at CMD reaches no writable location beside the issue, and no other write issues. -/
theorem writeToCmdIssues : Obligations.WriteToCmdIssues := by
  intro s win off n v rest hbusy htaken
  by_cases hcmd : win = .reg ∧ off = 0
  · obtain ⟨rfl, rfl⟩ := hcmd
    refine ⟨_, stepWith_write_cmd v rest hbusy htaken, fun _ => ⟨fun k hk => ?_, rfl⟩, fun h => absurd ⟨rfl, rfl⟩ h⟩
    exact lane_ofLanes (w := 32) _ (by decide) hk
  · refine ⟨_, stepWith_write_store v rest hbusy htaken hcmd, fun h => absurd h hcmd, fun _ => ?_⟩
    obtain ⟨_, _, _, _, _, _, _, hfields⟩ := writeBytes_fields win off v n { s with agenda := rest }
    rw [hfields]
    exact ⟨rfl, rfl⟩

/-- Settles O5: the placed word is issued, and the sequencer's turn on it is its command. -/
theorem placedWordRunsNext : Obligations.PlacedWordRunsNext := by
  intro s i
  rw [withFetchWord_toNat, step_placeCommand]
  exact sequencerTurn_issue i s

/-- Settles O51: BUSY is tested before the write is looked at. -/
theorem writesWhileBusyDropped : Obligations.WritesWhileBusyDropped := by
  intro s win off n v rest hbusy htaken
  rw [stepWith_write_taken v rest htaken, hostWrite_of_busy win off n v (s := { s with agenda := rest }) hbusy]
  rfl

/-- Settles O52: each ground of refusal fails the check that every access must pass first. -/
theorem refusedAccessChangesNothing : Obligations.RefusedAccessChangesNothing := by
  intro s win off n v rest hground
  have hrefused := accessTaken_eq_false hground
  exact ⟨⟨_, stepWith_read_refused rest hrefused⟩, stepWith_write_refused v rest hrefused⟩

end Sys2Proof.MemoryProofs

/-! Proofs about the command word and its completion (30_encoding.md): how a word is rejected, what a turn of the
sequencer and a step do, one equation for each way they can go, and the statements settled from that. -/

namespace Sys2Proof.Machine

/-! ### Rejected words -/

theorem toNat_zeroField (w : BitVec 32) : (zeroField w).toNat = w.toNat / 256 := by
  simp only [zeroField, BitVec.extractLsb'_toNat, Nat.shiftRight_eq_div_pow]
  omega

theorem zeroField_eq_zero_iff (w : BitVec 32) : zeroField w = 0 ↔ w.toNat / 256 = 0 := by
  rw [← toNat_zeroField, ← BitVec.toNat_inj]
  rfl

/-- A word with a zero ZERO field is its opcode (R90). -/
theorem toNat_opcField_of_zeroField {w : BitVec 32} (h : zeroField w = 0) : (opcField w).toNat = w.toNat := by
  have hsmall := (zeroField_eq_zero_iff w).mp h
  simp only [opcField, BitVec.extractLsb'_toNat, Nat.shiftRight_zero]
  omega

/-- The opcodes outside the map are 0 and those from 5 up (R92). -/
theorem toNat_of_opcodeMap_eq_none {opc : BitVec 8} (h : opcodeMap opc = none) : opc.toNat = 0 ∨ 5 ≤ opc.toNat := by
  unfold opcodeMap at h
  split_ifs at h with h1 h2 h3 h4
  bv_omega

/-- Decoding in the order of R97: the ZERO check, the opcode check, and only then a command. -/
theorem decode_cases (w : BitVec 32) :
    (zeroField w ≠ 0 ∧ decode w = .error (.zeroField (zeroField w))) ∨
      (zeroField w = 0 ∧ opcodeMap (opcField w) = none ∧ decode w = .error (.opcode (opcField w))) ∨
      ∃ i, decode w = .ok i := by
  unfold decode
  by_cases hz : zeroField w = 0
  · rw [if_neg (not_not_intro hz)]
    cases hm : opcodeMap (opcField w) with
    | none => exact .inr (.inl ⟨hz, rfl, rfl⟩)
    | some i => exact .inr (.inr ⟨i, rfl⟩)
  · exact .inl ⟨hz, if_pos hz⟩

theorem decodeTableWord_encode (i : Instr) : decodeTableWord 32 (encode i).toNat = some i := by
  cases i <;> rfl

/-! ### The sequencer and the step, one equation for each way they can go -/

theorem step_of_agenda_nil {s : State} (h : s.agenda = []) : step s = sequencerTurn s := by
  rw [step, h]

theorem step_of_agenda_cons {s : State} {e : Event} {rest : List Event} (h : s.agenda = e :: rest) :
    step s = takeEvent e { s with agenda := rest } := by
  rw [step, h]

theorem sequencerTurn_of_idle {s : State} (h : s.status.busy = false) : sequencerTurn s = .next s :=
  if_neg (by simp [h])

theorem sequencerTurn_of_busy {s : State} (h : s.status.busy = true) : sequencerTurn s = completion s := if_pos h

theorem completion_of_decode {s : State} {i : Instr} (h : decode s.op = .ok i) : completion s = exec i s := by
  rw [completion, pending, h]

theorem completion_of_decode_error {s : State} {e : DecodeError} (h : decode s.op = .error e) :
    completion s = .next (complete 3 s) := by
  rw [completion, pending, h, illegalCommand_eq]

theorem sequencerTurn_of_pending {s : State} {i : Instr} (hbusy : s.status.busy = true) (hop : decode s.op = .ok i) :
    sequencerTurn s = exec i s :=
  (sequencerTurn_of_busy hbusy).trans (completion_of_decode hop)

/-! ### Completion -/

/-- The codes a command of the four can end with are those of R166 other than IllegalCommand. -/
theorem exec_completes (i : Instr) (s : State) : ∃ t, exec i s = .next t ∧ t.status.busy = false ∧
    t.status.done = true ∧ t.status.err.toNat ≤ 5 ∧ t.status.err ≠ 3 := by
  obtain ⟨_, _, _, _, _, _, _, code, hexec, hcode⟩ := exec_shape i s
  have hlegal : code.toNat ≤ 5 ∧ code ≠ 3 := by rcases hcode with rfl | rfl | rfl | rfl | rfl <;> decide
  exact ⟨_, hexec, rfl, rfl, hlegal⟩

/-- Every word in OP completes, legal or not (R97, R98). -/
theorem completion_completes (s : State) :
    ∃ t, completion s = .next t ∧ t.status.busy = false ∧ t.status.done = true := by
  cases hop : decode s.op with
  | ok i =>
    obtain ⟨t, hexec, hidle, hdone, -⟩ := exec_completes i s
    exact ⟨t, (completion_of_decode hop).trans hexec, hidle, hdone⟩
  | error e => exact ⟨_, completion_of_decode_error hop, rfl, rfl⟩

theorem sequencerTurn_next (s : State) : ∃ t, sequencerTurn s = .next t := by
  cases hbusy : s.status.busy with
  | false => exact ⟨s, sequencerTurn_of_idle hbusy⟩
  | true =>
    obtain ⟨t, ht, -⟩ := completion_completes s
    exact ⟨t, (sequencerTurn_of_busy hbusy).trans ht⟩

theorem takeEvent_next (e : Event) (s : State) : ∃ t, takeEvent e s = .next t := by
  cases e with
  | access a => exact ⟨_, rfl⟩
  | sequencer => exact sequencerTurn_next s
  | rst => exact ⟨_, rfl⟩

theorem step_next (s : State) : ∃ t, step s = .next t := by
  cases hagenda : s.agenda with
  | nil => rw [step_of_agenda_nil hagenda]; exact sequencerTurn_next s
  | cons e rest => rw [step_of_agenda_cons hagenda]; exact takeEvent_next e _

/-! ### A pending operation along a run -/

/-- While BUSY is 1 a host access changes only the answers and the draws (R64, R96). -/
theorem hostAccess_of_busy (a : Access) {s : State} (h : s.status.busy = true) :
    ∃ replies draws, hostAccess a s = { s with replies := replies, draws := draws } := by
  rcases hostAccess_cases a s with hkept | ⟨hidle, -⟩
  · exact hkept
  · simp [h] at hidle

theorem run_succ_of_step {M : Host.Core} {k : Nat} {s t : M.State} (h : M.step s = .next t) :
    M.run (k + 1) s = M.run k t := by
  rw [Host.Core.run, h]

/-- Within `n` steps the pending operation completes: BUSY 0 and DONE 1 (R97). -/
def CompletesWithin (n : Nat) (s : State) : Prop :=
  ∃ k t, k ≤ n ∧ core.run k s = .next t ∧ t.status.busy = false ∧ t.status.done = true

theorem completesWithin_succ {n : Nat} {s t : State} (hstep : step s = .next t) (h : CompletesWithin n t) :
    CompletesWithin (n + 1) s := by
  obtain ⟨k, u, hk, hrun, hu⟩ := h
  exact ⟨k + 1, u, Nat.succ_le_succ hk, (run_succ_of_step (M := core) hstep).trans hrun, hu⟩

theorem completesWithin_of_completion {n : Nat} {s u : State} (h : step s = completion u) :
    CompletesWithin (n + 1) s := by
  obtain ⟨t, hnext, hdone⟩ := completion_completes u
  exact completesWithin_succ (h.trans hnext) ⟨0, t, Nat.zero_le n, rfl, hdone⟩

/-- By induction on the agenda: an access keeps BUSY and is one event less to wait for, a turn of the sequencer
completes, and so does the step that finds no event left. -/
theorem completesWithin_agenda {s : State} (hbusy : s.status.busy = true) (hrst : ∀ e ∈ s.agenda, e ≠ .rst) :
    CompletesWithin (s.agenda.length + 1) s := by
  generalize hagenda : s.agenda = agenda at hrst ⊢
  induction agenda generalizing s with
  | nil => exact completesWithin_of_completion ((step_of_agenda_nil hagenda).trans (sequencerTurn_of_busy hbusy))
  | cons e rest ih =>
    obtain ⟨he, hrest⟩ := List.forall_mem_cons.mp hrst
    have hstep := step_of_agenda_cons hagenda
    cases e with
    | access a =>
      obtain ⟨_, _, hkept⟩ := hostAccess_of_busy a (s := { s with agenda := rest }) hbusy
      exact completesWithin_succ hstep (ih (by rw [hkept]; exact hbusy) (by rw [hkept]) hrest)
    | sequencer => exact completesWithin_of_completion (hstep.trans (sequencerTurn_of_busy hbusy))
    | rst => exact absurd rfl he

end Sys2Proof.Machine

namespace Sys2Proof.EncodingProofs

open Sys2Proof.Machine

/-- Settles O2: a word is known by its two fields, and the opcode map is one-to-one. -/
theorem decodeAgreesWithEncode : Obligations.DecodeAgreesWithEncode :=
  ⟨fun i _ => decode_encode i, fun _ _ => eq_encode_of_decode⟩

/-- Settles O3, by the check the word fails; one that fails neither would be a command's word. -/
theorem otherWordsRejectedByName : Obligations.OtherWordsRejectedByName := by
  intro w hw
  rcases decode_cases w with ⟨hz, hdecode⟩ | ⟨hz, hopc, hdecode⟩ | ⟨i, hdecode⟩
  · exact .inl ⟨mt (zeroField_eq_zero_iff w).mpr hz, hdecode⟩
  · have hrange := toNat_of_opcodeMap_eq_none hopc
    rw [toNat_opcField_of_zeroField hz] at hrange
    exact .inr ⟨(zeroField_eq_zero_iff w).mp hz, hrange, hdecode⟩
  · exact absurd (eq_encode_of_decode hdecode) (hw i)

/-- Settles O8: each check of each command ends in a completion. -/
theorem everyCommandCompletes : Obligations.EveryCommandCompletes := exec_completes

/-- Settles O9: each event, and the sequencer's turn when there is none, answers a next state. -/
theorem noStepStops : Obligations.NoStepStops := step_next

/-- Settles O10, by induction on the agenda. -/
theorem pendingOperationCompletes : Obligations.PendingOperationCompletes := fun _ => completesWithin_agenda

/-- Settles O1: each of the four is its command's word. -/
theorem commandWordsDecode : Obligations.CommandWordsDecode :=
  ⟨decode_encode .expand, decode_encode .encblk, decode_encode .ctrblk, decode_encode .process,
    decodeTableWord_encode .expand, decodeTableWord_encode .encblk, decodeTableWord_encode .ctrblk,
    decodeTableWord_encode .process⟩

/-- Settles O4: on both forms of the agenda the step is the sequencer's turn, and that is the pending command. -/
theorem stepRunsPendingCommand : Obligations.StepRunsPendingCommand := by
  intro s i hbusy hop
  refine ⟨fun hagenda => ?_, fun rest hagenda => ?_⟩
  · exact (step_of_agenda_nil hagenda).trans (sequencerTurn_of_pending hbusy hop)
  · exact (step_of_agenda_cons hagenda).trans (sequencerTurn_of_pending (s := { s with agenda := rest }) hbusy hop)

/-- Settles O6: on both forms of the agenda the step is the sequencer's turn, which is not enabled. -/
theorem sequencerIdleWhenNotBusy : Obligations.SequencerIdleWhenNotBusy := by
  intro s hidle
  refine ⟨fun hagenda => ?_, fun rest hagenda => ?_⟩
  · exact (step_of_agenda_nil hagenda).trans (sequencerTurn_of_idle hidle)
  · exact (step_of_agenda_cons hagenda).trans (sequencerTurn_of_idle (s := { s with agenda := rest }) hidle)

end Sys2Proof.EncodingProofs

/-! Proofs about the constant tables (40_constant_tables.md) and the block transform built on them: the S-box read
back, doubling in GF(2^8), each sub-step of the cipher undone, and the statements settled from that. -/

namespace Sys2Proof.Machine

/-! ### The S-box -/

/-- The inverse of R112's affine map. -/
def sboxUnaffine (b : Byte) : Byte := b.rotateLeft 1 ^^^ b.rotateLeft 3 ^^^ b.rotateLeft 6 ^^^ 0x05

theorem sboxAffine_sboxUnaffine : ∀ b : Byte, sboxAffine (sboxUnaffine b) = b := by decide

/-- The multiplicative inverse of R112, as the table holds it: the byte whose affine image is the entry. -/
def fieldInverse (x : Byte) : Byte := sboxUnaffine (sbox x)

theorem sboxAffine_fieldInverse (x : Byte) : sboxAffine (fieldInverse x) = sbox x :=
  sboxAffine_sboxUnaffine (sbox x)

theorem fieldInverse_zero : fieldInverse 0 = 0 := by decide

theorem gmul_fieldInverse : ∀ x : Byte, x ≠ 0 → gmul x (fieldInverse x) = 0x01 := by decide

theorem fieldInverse_involutive : Function.Involutive fieldInverse := by
  unfold Function.Involutive
  decide

/-- The inverse is read off the entry and undoes itself, so the entry determines the index. -/
theorem sbox_injective : Function.Injective sbox :=
  Function.Injective.of_comp (f := sboxUnaffine) fieldInverse_involutive.injective

theorem sbox_ne_self_or_complement : ∀ x : Byte, sbox x ≠ x ∧ sbox x ≠ x ^^^ 0xFF := by decide

/-! ### Doubling -/

theorem toNat_xtime (b : Byte) :
    (xtime b).toNat = if b.toNat < 128 then 2 * b.toNat else (2 * b.toNat - 256) ^^^ 0x1B := by
  have hb := b.isLt
  have hshift : (b <<< 1).toNat = 2 * b.toNat % 256 := by simp [Nat.shiftLeft_eq, Nat.mul_comm]
  have htop : b.getLsbD 7 = decide (128 ≤ b.toNat) := BitVec.msb_eq_decide b
  rw [xtime, htop, BitVec.toNat_xor, hshift]
  by_cases h : b.toNat < 128
  · simp [h, Nat.not_le.mpr h, Nat.mod_eq_of_lt (show 2 * b.toNat < 256 by omega)]
  · simp [h, Nat.not_lt.mp h, show 2 * b.toNat % 256 = 2 * b.toNat - 256 by omega]

theorem gmul_two (b : Byte) : gmul b 0x02 = mul2 b := by
  simp [gmul, gmulBits, xtimeIter, mul2]

theorem gmul_three (b : Byte) : gmul b 0x03 = mul3 b := by
  simp [gmul, gmulBits, xtimeIter, mul3, BitVec.xor_comm]

/-! ### SubBytes, AddRoundKey and ShiftRows -/

theorem byteAt_subBytes (s : Bytes 16) {k : Nat} (hk : k < 16) : byteAt (subBytes s) k = sbox (byteAt s k) :=
  byteAt_tabulate_lt hk

theorem byteAt_addRoundKey (rk : Bytes 176) (r : Nat) (s : Bytes 16) {k : Nat} (hk : k < 16) :
    byteAt (addRoundKey rk r s) k = byteAt s k ^^^ byteAt rk (16 * r + k) :=
  byteAt_tabulate_lt hk

theorem byteAt_shiftRows (s : Bytes 16) {c r : Nat} (hc : c < 4) (hr : r < 4) :
    byteAt (shiftRows s) (4 * c + r) = byteAt s (4 * ((c + r) % 4) + r) := by
  rw [shiftRows, byteAt_tabulate_lt (by omega), show (4 * c + r) / 4 = c by omega, show (4 * c + r) % 4 = r by omega]

/-- Two State matrices with the same byte in every column and row are the same. -/
theorem state_ext {s t : Bytes 16} (h : ∀ c r, c < 4 → r < 4 → byteAt s (4 * c + r) = byteAt t (4 * c + r)) :
    s = t := by
  refine bytes_ext fun k hk => ?_
  have hbyte := h (k / 4) (k % 4) (by omega) (by omega)
  rwa [Nat.div_add_mod] at hbyte

theorem subBytes_injective : Function.Injective subBytes := by
  intro s t h
  refine bytes_ext fun k hk => sbox_injective ?_
  rw [← byteAt_subBytes s hk, ← byteAt_subBytes t hk, h]

theorem addRoundKey_involutive (rk : Bytes 176) (r : Nat) : Function.Involutive (addRoundKey rk r) := by
  refine fun s => bytes_ext fun k hk => ?_
  rw [byteAt_addRoundKey _ _ _ hk, byteAt_addRoundKey _ _ _ hk, BitVec.xor_assoc, BitVec.xor_self, BitVec.xor_zero]

/-- Every byte stands somewhere in the shifted matrix: column `c` of row `r` comes from `r` columns further on. -/
theorem byteAt_shiftRows_source (s : Bytes 16) {c r : Nat} (hc : c < 4) (hr : r < 4) :
    byteAt (shiftRows s) (4 * ((c + 4 - r) % 4) + r) = byteAt s (4 * c + r) := by
  rw [byteAt_shiftRows s (Nat.mod_lt _ (by decide)) hr, show ((c + 4 - r) % 4 + r) % 4 = c by omega]

theorem shiftRows_injective : Function.Injective shiftRows := by
  intro s t h
  refine state_ext fun c r hc hr => ?_
  rw [← byteAt_shiftRows_source s hc hr, ← byteAt_shiftRows_source t hc hr, h]

/-! ### MixColumns -/

/-- The bytes of column `c` of the State matrix, by row. -/
def column (s : Bytes 16) (c r : Nat) : Byte := byteAt s (4 * c + r)

/-- A column of MixColumns, by row, from the old column (R133). -/
def mixColumn (col : Nat → Byte) : Nat → Byte := mixByte (col 0) (col 1) (col 2) (col 3)

theorem column_mixColumns (s : Bytes 16) {c r : Nat} (hc : c < 4) (hr : r < 4) :
    column (mixColumns s) c r = mixColumn (column s c) r := by
  rw [column, mixColumns, byteAt_tabulate_lt (by omega), show (4 * c + r) / 4 = c by omega,
    show (4 * c + r) % 4 = r by omega]
  rfl

theorem mixColumn_congr {f g : Nat → Byte} (h : ∀ r, r < 4 → f r = g r) : mixColumn f = mixColumn g := by
  rw [mixColumn, h 0 (by decide), h 1 (by decide), h 2 (by decide), h 3 (by decide)]
  rfl

/-- The square of the matrix of R133 is the circulant of 05 00 04 00: only rows two apart meet. -/
theorem mixColumn_mixColumn (col : Nat → Byte) {r : Nat} (hr : r < 4) :
    mixColumn (mixColumn col) r = xtime (xtime (col r ^^^ col ((r + 2) % 4))) ^^^ col r := by
  obtain rfl | rfl | rfl | rfl : r = 0 ∨ r = 1 ∨ r = 2 ∨ r = 3 := by omega
  all_goals
    simp only [mixColumn, mixByte, mul2, mul3, xtime_xor, Nat.reduceAdd, Nat.reduceMod]
    ac_nf
    simp

/-- The matrix of R133 has order four: its square adds the same multiple of `col r ^^^ col (r + 2)` to both of these
rows, so their exclusive or stays, and adding the multiple again takes it away. -/
theorem mixColumn_four_times (col : Nat → Byte) {r : Nat} (hr : r < 4) :
    mixColumn (mixColumn (mixColumn (mixColumn col))) r = col r := by
  have hopposite : ((r + 2) % 4 + 2) % 4 = r := by omega
  rw [mixColumn_mixColumn _ hr, mixColumn_mixColumn _ hr, mixColumn_mixColumn _ (Nat.mod_lt _ (by decide)), hopposite]
  simp only [xtime_xor]
  ac_nf
  simp

theorem mixColumns_injective : Function.Injective mixColumns := by
  intro s t h
  refine state_ext fun c r hc hr => ?_
  have hmixed : mixColumn (mixColumn (column s c)) = mixColumn (mixColumn (column t c)) :=
    mixColumn_congr fun r hr => by rw [← column_mixColumns s hc hr, ← column_mixColumns t hc hr, h]
  calc column s c r
    _ = mixColumn (mixColumn (mixColumn (mixColumn (column s c)))) r := (mixColumn_four_times _ hr).symm
    _ = mixColumn (mixColumn (mixColumn (mixColumn (column t c)))) r := by rw [hmixed]
    _ = column t c r := mixColumn_four_times _ hr

/-! ### The cipher -/

theorem midRound_injective (rk : Bytes 176) (r : Nat) : Function.Injective (midRound rk r) :=
  (addRoundKey_involutive rk r).injective.comp
    (mixColumns_injective.comp (shiftRows_injective.comp subBytes_injective))

theorem afterRounds_injective (rk : Bytes 176) (n : Nat) : Function.Injective (afterRounds rk · n) := by
  induction n with
  | zero => exact (addRoundKey_involutive rk 0).injective
  | succ n ih => exact (midRound_injective rk (n + 1)).comp ih

theorem cipher_injective (rk : Bytes 176) : Function.Injective (cipher rk) :=
  (addRoundKey_involutive rk 10).injective.comp
    (shiftRows_injective.comp (subBytes_injective.comp (afterRounds_injective rk 9)))

end Sys2Proof.Machine

namespace Sys2Proof.TableProofs

open Sys2Proof.Machine

/-- Settles O25: each sub-step can be undone, and so can the rounds made of them. -/
theorem cipherIsInjective : Obligations.CipherIsInjective := fun rk _ _ h => cipher_injective rk h

/-- Settles O11: the entry determines the index; the rest is read off the table. -/
theorem sboxIsPermutation : Obligations.SboxIsPermutation :=
  ⟨fun _ _ h => sbox_injective h, sbox_ne_self_or_complement, by decide⟩

/-- Settles O12: the inverse is the byte whose affine image the entry is. -/
theorem sboxIsAffineInverse : Obligations.SboxIsAffineInverse := by
  intro x
  refine ⟨fieldInverse x, ?_, gmul_fieldInverse x, (sboxAffine_fieldInverse x).symm⟩
  rintro rfl
  exact fieldInverse_zero

/-- Settles O13, entry by entry. -/
theorem roundConstantsDouble : Obligations.RoundConstantsDouble := by
  refine ⟨rfl, fun j hlow hhigh => ?_⟩
  interval_cases j <;> rfl

/-- Settles O14: the shift drops the top bit, which is set from 128 up. -/
theorem xtimeDoublesAndReduces : Obligations.XtimeDoublesAndReduces := toNat_xtime

/-- Settles O15: 2 has bit 1 alone and 3 has bits 0 and 1. -/
theorem multipliersAreProducts : Obligations.MultipliersAreProducts := fun b =>
  ⟨(gmul_two b).symm, (gmul_three b).symm, rfl⟩

end Sys2Proof.TableProofs

/-! Proofs about the key schedule (41_key_schedule.md): the words of the expansion, their place in RK, the two
outcomes of EXPAND, and the statements settled from that. -/

namespace Sys2Proof.Machine

open Sys2Proof.Claims

/-! ### The words of the schedule -/

theorem length_keyExpansion (key : Bytes 16) : (keyExpansion key).length = 44 := length_expandWords key 40

/-- The seed words stay: the loop only appends (R123). -/
theorem getElem?_keyExpansion_seed (key : Bytes 16) {i : Nat} (hi : i < 4) :
    (keyExpansion key)[i]? = some (keyWord key i) := by
  rw [keyExpansion, getElem?_expandWords key (n := 0) hi (Nat.zero_le _)]
  interval_cases i <;> rfl

theorem nextWord_of_getElem? {ws : List Word} {i : Nat} {before prev : Word} (hbefore : ws[i - 4]? = some before)
    (hprev : ws[i - 1]? = some prev) : nextWord ws i = xorWord before (scheduleTemp i prev) := by
  simp [nextWord, List.getD_eq_getElem?_getD, hbefore, hprev]

/-- Word `i` of the schedule was made from words of the schedule: those it read when it was added have stayed (R123). -/
theorem getElem?_keyExpansion_next (key : Bytes 16) {i : Nat} (hlow : 4 ≤ i) (hhigh : i < 44) {before prev : Word}
    (hbefore : (keyExpansion key)[i - 4]? = some before) (hprev : (keyExpansion key)[i - 1]? = some prev) :
    (keyExpansion key)[i]? = some (xorWord before (scheduleTemp i prev)) := by
  obtain ⟨n, rfl⟩ := Nat.exists_eq_add_of_le' hlow
  have stays {j m : Nat} (hj : j < m + 4) (hm : m ≤ 40) : (keyExpansion key)[j]? = (expandWords key m)[j]? :=
    getElem?_expandWords key hj hm
  rw [stays (m := n) (by omega) (by omega)] at hbefore hprev
  rw [stays (m := n + 1) (by omega) (by omega), getElem?_expandWords_succ, nextWord_of_getElem? hbefore hprev]

/-- R123's `w[i-4] XOR temp`, byte by byte. -/
theorem xorWord_scheduleTemp (i : Nat) (before prev : Word) :
    xorWord before (scheduleTemp i prev) =
      if i % 4 = 0 then
        ⟨before.b0 ^^^ (sbox prev.b1 ^^^ rcon (i / 4)), before.b1 ^^^ sbox prev.b2, before.b2 ^^^ sbox prev.b3,
          before.b3 ^^^ sbox prev.b0⟩
      else ⟨before.b0 ^^^ prev.b0, before.b1 ^^^ prev.b1, before.b2 ^^^ prev.b2, before.b3 ^^^ prev.b3⟩ := by
  unfold scheduleTemp
  split <;> rfl

/-! ### The schedule in RK -/

/-- `RK[4i + j] = w[i][j]` (R124). -/
theorem byteAt_roundKeys {key : Bytes 16} {i j : Nat} {w : Word} (hw : (keyExpansion key)[i]? = some w) (hj : j < 4) :
    byteAt (roundKeys key) (4 * i + j) = wordByte w j := by
  obtain ⟨hi, -⟩ := List.getElem?_eq_some_iff.mp hw
  rw [length_keyExpansion] at hi
  rw [roundKeys, byteAt_packWords _ hi hj, List.getD_eq_getElem?_getD, hw, Option.getD_some]

/-- `RK[4i + j] = w[i][j]`, the four bytes of a word one by one. -/
theorem roundKeys_word {key : Bytes 16} {i : Nat} {w : Word} (hw : (keyExpansion key)[i]? = some w) :
    byteAt (roundKeys key) (4 * i) = w.b0 ∧ byteAt (roundKeys key) (4 * i + 1) = w.b1 ∧
      byteAt (roundKeys key) (4 * i + 2) = w.b2 ∧ byteAt (roundKeys key) (4 * i + 3) = w.b3 :=
  ⟨byteAt_roundKeys (j := 0) hw (by decide), byteAt_roundKeys hw (by decide), byteAt_roundKeys hw (by decide),
    byteAt_roundKeys hw (by decide)⟩

theorem wordByte_keyWord (key : Bytes 16) (i : Nat) {j : Nat} (hj : j < 4) :
    wordByte (keyWord key i) j = byteAt key (4 * i + j) := by
  interval_cases j <;> rfl

/-- Round key 0 is the key: its four words are the seed words (R124). -/
theorem byteAt_roundKeys_key (key : Bytes 16) {k : Nat} (hk : k < 16) : byteAt (roundKeys key) k = byteAt key k := by
  have hj : k % 4 < 4 := Nat.mod_lt _ (by decide)
  calc byteAt (roundKeys key) k
    _ = byteAt (roundKeys key) (4 * (k / 4) + k % 4) := by rw [Nat.div_add_mod]
    _ = wordByte (keyWord key (k / 4)) (k % 4) := byteAt_roundKeys (getElem?_keyExpansion_seed key (by omega)) hj
    _ = byteAt key k := by rw [wordByte_keyWord key _ hj, Nat.div_add_mod]

/-! ### What a command leaves unchanged -/

/-- No command writes an operand register, DIN, OP, the parameters or the host's side (R23). -/
theorem exec_operandsKept {i : Instr} {s t : State} (h : exec i s = .next t) : OperandsKept s t := by
  obtain ⟨_, _, _, _, _, _, _, _, hshape, -⟩ := exec_shape i s
  cases hshape.symm.trans h
  exact ⟨rfl, rfl, rfl, rfl, rfl, rfl, fun _ => rfl, rfl, rfl, rfl, rfl, rfl⟩

/-- EXPAND writes no result register of another command, and nothing in DOUT (R125). -/
theorem exec_expand_results {s t : State} (h : exec .expand s = .next t) :
    t.outlen = s.outlen ∧ t.blkOut = s.blkOut ∧ t.cb = s.cb ∧ ∀ a, doutByte t a = doutByte s a := by
  rcases exec_expand_cases h with ⟨-, rfl⟩ | ⟨-, rfl⟩ <;> exact ⟨rfl, rfl, rfl, fun _ => rfl⟩

end Sys2Proof.Machine

namespace Sys2Proof.KeyScheduleProofs

open Sys2Proof.Machine

/-- Settles O17: each turn of the loop reads words that no later turn changes. -/
theorem keyExpansionRecurrence : Obligations.KeyExpansionRecurrence := by
  intro key
  have hlen := length_keyExpansion key
  refine ⟨hlen, fun i hi => getElem?_keyExpansion_seed key hi, fun i hlow hhigh => ?_⟩
  have hbefore := List.getElem?_eq_getElem (l := keyExpansion key) (i := i - 4) (by omega)
  have hprev := List.getElem?_eq_getElem (l := keyExpansion key) (i := i - 1) (by omega)
  refine ⟨_, _, hbefore, hprev, ?_⟩
  rw [getElem?_keyExpansion_next key hlow hhigh hbefore hprev, xorWord_scheduleTemp]

/-- Settles O18: RK is the words packed in order, and the seed words are the key. -/
theorem schedulePacksWordsInOrder : Obligations.SchedulePacksWordsInOrder := fun key =>
  ⟨fun _ _ => roundKeys_word, fun _ => byteAt_roundKeys_key key⟩

/-- Settles O19, by the check of KEYLEN. -/
theorem expandWritesSchedule : Obligations.ExpandWritesSchedule := fun _ =>
  ⟨fun hkeylen => ⟨_, exec_expand_ok hkeylen, fun _ _ => roundKeys_word, rfl⟩,
    fun hkeylen => ⟨_, exec_expand_refused hkeylen, rfl⟩⟩

/-- Settles O20: the operands stay under every command, the other results under each outcome of EXPAND. -/
theorem expandFrame : Obligations.ExpandFrame := fun _ _ h => ⟨exec_operandsKept h, exec_expand_results h⟩

/-- Settles O16: both are given byte by byte. -/
theorem rotWordAndSubWord : Obligations.RotWordAndSubWord := fun _ _ _ _ => ⟨rfl, rfl⟩

end Sys2Proof.KeyScheduleProofs

/-! Proofs about the block transform (42_block_transform.md) and ENCBLK: MixColumns by products in GF(2^8), the rounds
as a fold over the round numbers, the two outcomes of ENCBLK, and the statements settled from that. -/

namespace Sys2Proof.Machine

/-! ### The sub-steps and the rounds -/

/-- Row `r` of the circulant of 02 03 01 01: the column's bytes from row `r` on, cyclically (R133). -/
theorem mixColumn_eq_gmul (col : Nat → Byte) {r : Nat} (hr : r < 4) :
    mixColumn col r =
      gmul (col r) 0x02 ^^^ gmul (col ((r + 1) % 4)) 0x03 ^^^ col ((r + 2) % 4) ^^^ col ((r + 3) % 4) := by
  rw [gmul_two, gmul_three]
  obtain rfl | rfl | rfl | rfl : r = 0 ∨ r = 1 ∨ r = 2 ∨ r = 3 := by omega
  · rfl
  all_goals
    simp only [mixColumn, mixByte, Nat.reduceAdd, Nat.reduceMod]
    ac_rfl

/-- Rounds 1 to `n` are done in that order (R135). -/
theorem afterRounds_eq_foldl (rk : Bytes 176) (block : Bytes 16) (n : Nat) :
    afterRounds rk block n = (List.range' 1 n).foldl (fun s round => midRound rk round s) (addRoundKey rk 0 block) := by
  induction n with
  | zero => rfl
  | succ n ih => rw [afterRounds, ih, List.range'_1_concat, List.foldl_concat, Nat.add_comm n 1]

/-! ### ENCBLK -/

theorem complete_of_rkvalid {s : State} {valid : Bool} (code : BitVec 8) (h : s.status.rkvalid = valid) :
    complete code s = { s with status := { busy := false, done := true, rkvalid := valid, err := code } } := by
  rw [← h]
  rfl

/-- ENCBLK writes no result register of another command, and nothing in DOUT; it only reads the schedule (R137). -/
theorem exec_encblk_results {s t : State} (h : exec .encblk s = .next t) :
    t.outlen = s.outlen ∧ t.cb = s.cb ∧ t.rk = s.rk ∧ t.status.rkvalid = s.status.rkvalid ∧ t.draws = s.draws ∧
      ∀ a, doutByte t a = doutByte s a := by
  rcases exec_encblk_cases h with ⟨-, rfl⟩ | ⟨-, rfl⟩ <;> exact ⟨rfl, rfl, rfl, rfl, rfl, fun _ => rfl⟩

end Sys2Proof.Machine

namespace Sys2Proof.BlockTransformProofs

open Sys2Proof.Machine

/-- Settles O21: both sub-steps act on each byte alone, and adding the round key again takes it away. -/
theorem subBytesAndAddRoundKey : Obligations.SubBytesAndAddRoundKey := fun s rk r _ hk =>
  ⟨byteAt_subBytes s hk, byteAt_addRoundKey rk r s hk, addRoundKey_involutive rk r s⟩

/-- Settles O22, by the column and row of the byte's index. -/
theorem shiftRowsShiftsEachRow : Obligations.ShiftRowsShiftsEachRow := fun s _ _ hr hc => byteAt_shiftRows s hc hr

/-- Settles O23: each column is mixed by itself, row by row of the circulant. -/
theorem mixColumnsMultipliesColumns : Obligations.MixColumnsMultipliesColumns := fun s c r hc hr =>
  calc column (mixColumns s) c r
    _ = mixColumn (column s c) r := column_mixColumns s hc hr
    _ = _ := mixColumn_eq_gmul (column s c) hr

/-- Settles O27: the operands stay under every command, the other state under each outcome of ENCBLK. -/
theorem encblkFrame : Obligations.EncblkFrame := fun _ _ h => ⟨exec_operandsKept h, exec_encblk_results h⟩

/-- Settles O24: the nine middle rounds are the fold over their round numbers. -/
theorem cipherRoundStructure : Obligations.CipherRoundStructure := fun rk block => by
  rw [cipher, afterRounds_eq_foldl]
  rfl

/-- Settles O26, by the check of RKVALID. -/
theorem encblkEncryptsBlock : Obligations.EncblkEncryptsBlock := fun s =>
  ⟨fun hvalid => by
      rw [exec_encblk_ok hvalid, complete_of_rkvalid (s := { s with blkOut := cipher s.rk s.blkIn }) 0 hvalid],
    fun hvalid => by rw [exec_encblk_refused hvalid, complete_of_rkvalid 4 hvalid]⟩

end Sys2Proof.BlockTransformProofs

/-! Proofs about the counter-block generator (43_counter_block.md) and CTRBLK: the bytes of a counter block as a
number, its value recovered from them, and the statements settled from that. -/

namespace Sys2Proof.Machine

/-! ### The bytes of a counter block -/

/-- Above the 64 bits of the counter value stand zero bytes, whatever the value (R145). -/
theorem byteAt_counterLayout_high (v : Nat) {k : Nat} (hk : k < 8) : byteAt (counterLayout v) k = 0 := by
  rw [counterLayout, byteAt_tabulate_lt (by omega), if_pos hk]

theorem byteAt_counterLayout_low (v : Nat) {k : Nat} (hlow : 8 ≤ k) (hhigh : k < 16) :
    (byteAt (counterLayout v) k).toNat = v / 2 ^ (120 - 8 * k) % 256 := by
  rw [counterLayout, byteAt_tabulate_lt hhigh, if_neg (by omega), BitVec.toNat_ofNat, Nat.shiftRight_eq_div_pow,
    Nat.mul_sub]

/-- A counter block is its 64-bit value as a 128-bit big-endian number (R145, R146). -/
theorem byteAt_counterLayout {v : Nat} (hv : v < 2 ^ 64) {k : Nat} (hk : k < 16) :
    (byteAt (counterLayout v) k).toNat = v / 2 ^ (120 - 8 * k) % 256 := by
  by_cases hlow : 8 ≤ k
  · exact byteAt_counterLayout_low v hlow hk
  · have hbound : v < 2 ^ (120 - 8 * k) := hv.trans_le (Nat.pow_le_pow_right (by decide) (by omega))
    rw [byteAt_counterLayout_high v (by omega), Nat.div_eq_of_lt hbound]
    rfl

/-- Bit `i` of the counter value stands in the byte that holds the value's byte `i / 8`. -/
theorem testBit_byteAt_counterLayout (v : Nat) {i : Nat} (hi : i < 64) :
    (byteAt (counterLayout v) (15 - i / 8)).toNat.testBit (i % 8) = v.testBit i := by
  have hshift : 120 - 8 * (15 - i / 8) = 8 * (i / 8) := by omega
  have hbit : i % 8 < 8 := Nat.mod_lt i (by decide)
  rw [byteAt_counterLayout_low v (by omega) (by omega), hshift, show 256 = 2 ^ 8 from rfl, Nat.testBit_mod_two_pow,
    Nat.testBit_div_two_pow, Nat.mod_add_div, decide_eq_true hbit, Bool.true_and]

/-- A counter block determines its counter value. -/
theorem counterLayout_injOn : Set.InjOn counterLayout {v | v < 2 ^ 64} := by
  intro v hv w hw heq
  refine Nat.eq_of_testBit_eq fun i => ?_
  by_cases hi : i < 64
  · rw [← testBit_byteAt_counterLayout v hi, heq, testBit_byteAt_counterLayout w hi]
  · have hpow : 2 ^ 64 ≤ 2 ^ i := Nat.pow_le_pow_right (by decide) (by omega)
    rw [Nat.testBit_eq_false_of_lt (hv.trans_le hpow), Nat.testBit_eq_false_of_lt (hw.trans_le hpow)]

/-! ### When there is a counter block -/

/-- The overflow check, made without adding, is the bound on the sum (R146). -/
theorem counterBlock_eq_none_iff_sum {ic idx : Nat} (hic : ic < 2 ^ 64) :
    counterBlock ic idx = none ↔ 2 ^ 64 - 1 < ic + idx := by
  rw [counterBlock_eq_none]
  omega

theorem counterBlock_of_sum_lt {ic idx : Nat} (h : ic + idx < 2 ^ 64) :
    counterBlock ic idx = some (counterLayout (ic + idx)) := counterBlock_eq_some (by omega)

theorem sum_lt_of_counterBlock {ic idx : Nat} {block : Bytes 16} (hic : ic < 2 ^ 64)
    (h : counterBlock ic idx = some block) : ic + idx < 2 ^ 64 := by
  by_contra hsum
  have hnone := (counterBlock_eq_none_iff_sum (idx := idx) hic).mpr (by omega)
  exact Option.some_ne_none block (h.symm.trans hnone)

/-! ### CTRBLK -/

/-- CTRBLK writes no result register but CB, and nothing in DOUT; it leaves the schedule alone (R147). -/
theorem exec_ctrblk_results {s t : State} (h : exec .ctrblk s = .next t) :
    t.outlen = s.outlen ∧ t.blkOut = s.blkOut ∧ t.rk = s.rk ∧ t.status.rkvalid = s.status.rkvalid ∧
      t.draws = s.draws ∧ ∀ a, doutByte t a = doutByte s a := by
  rcases exec_ctrblk_cases h with ⟨-, rfl⟩ | ⟨-, rfl⟩ <;> exact ⟨rfl, rfl, rfl, rfl, rfl, fun _ => rfl⟩

end Sys2Proof.Machine

namespace Sys2Proof.CounterBlockProofs

open Sys2Proof.Machine

/-- Settles O29: the block is the layout of the sum, read byte by byte. -/
theorem counterBlockLayout : Obligations.CounterBlockLayout := by
  intro ic idx block hic _ h
  cases (counterBlock_of_sum_lt (sum_lt_of_counterBlock hic h)).symm.trans h
  refine ⟨fun k hk => byteAt_counterLayout_high _ hk, fun k hk => ?_⟩
  rw [byteAt_counterLayout_low _ (by omega) (by omega), show 120 - 8 * (8 + k) = 56 - 8 * k by omega]

/-- Settles O30: a block exists exactly when the sum fits, and it is then a function of the sum. -/
theorem counterBlockOverflow : Obligations.CounterBlockOverflow := by
  intro ic idx hic _
  refine ⟨counterBlock_eq_none_iff_sum hic, fun hsum => ?_⟩
  have hblock := counterBlock_of_sum_lt hsum
  have hswap : counterBlock idx ic = some (counterLayout (ic + idx)) :=
    Nat.add_comm idx ic ▸ counterBlock_of_sum_lt (by omega)
  exact ⟨hblock.trans hswap.symm, hblock.trans (counterBlock_of_sum_lt (idx := 0) hsum).symm, _, hblock,
    fun _ => byteAt_counterLayout hsum⟩

/-- Settles O32: the operands stay under every command, the other state under each outcome of CTRBLK. -/
theorem ctrblkFrame : Obligations.CtrblkFrame := fun _ _ h => ⟨exec_operandsKept h, exec_ctrblk_results h⟩

/-- Settles O33: the cipher is injective, and a counter block determines its counter value. -/
theorem keystreamBlocksDistinct : Obligations.KeystreamBlocksDistinct := fun rk _ _ _ hi hj hne heq =>
  hne (Nat.add_left_cancel (counterLayout_injOn hi hj (cipher_injective rk heq)))

/-- Settles O31, by the check for overflow. -/
theorem ctrblkDerivesBlock : Obligations.CtrblkDerivesBlock := fun _ =>
  ⟨fun hfits => ⟨_, counterBlock_eq_some hfits, exec_ctrblk_ok hfits⟩, exec_ctrblk_refused⟩

end Sys2Proof.CounterBlockProofs

/-! Proofs about the CTR stream processor (44_ctr_stream.md): which error a PROCESS reports, what DOUT holds after it
at every offset, the blocks written in any order, and the statements settled from that. -/

namespace Sys2Proof.Machine

open Sys2Proof.Claims

/-! ### Which error a PROCESS reports -/

/-- The error code of a PROCESS, its checks in the order of R153 and R175. -/
def processCode (s : State) : BitVec 8 :=
  if s.keylen ≠ 16 then 1
  else if s.params.bufcap < s.len.toNat then 5
  else if s.len.toNat = 0 then 0
  else if 2 ^ 64 < s.ictr.toNat + (s.len.toNat + 15) / 16 then 2
  else 0

/-- The key length and the data length pass their checks (R153). -/
structure LengthsValid (s : State) : Prop where
  keylen : s.keylen = 16
  len : s.len.toNat ≤ s.params.bufcap

/-- Every block's counter value is at most 2^64 - 1 (R155); so it is for the empty input (R154). -/
def CountersFit (s : State) : Prop := s.ictr.toNat + (s.len.toNat + 15) / 16 ≤ 2 ^ 64

theorem blockCount_le_iff (s : State) : blockCount s ≤ 2 ^ 64 - s.ictr.toNat ↔ CountersFit s := by
  have hictr := s.ictr.isLt
  unfold blockCount CountersFit
  omega

theorem len_pos_of_not_countersFit {s : State} (h : ¬CountersFit s) : 0 < s.len.toNat := by
  have hictr := s.ictr.isLt
  unfold CountersFit at h
  omega

theorem exec_process_streamed {s : State} (hv : LengthsValid s) (h0 : 0 < s.len.toNat) :
    exec .process s = .next (streamed s) :=
  execProcess_blocks hv.keylen hv.len h0

theorem streamed_status_of_fit {s : State} (h : CountersFit s) :
    (streamed s).status = { busy := false, done := true, rkvalid := true, err := 0 } := by
  rw [streamed, if_pos ((blockCount_le_iff s).mpr h)]
  rfl

theorem streamed_status_of_overflow {s : State} (h : ¬CountersFit s) :
    (streamed s).status = { busy := false, done := true, rkvalid := true, err := 2 } := by
  rw [streamed, if_neg (mt (blockCount_le_iff s).mp h)]
  rfl

theorem process_err {s t : State} (h : exec .process s = .next t) : t.status.err = processCode s := by
  unfold processCode
  rcases exec_process_cases h with ⟨hk, rfl⟩ | ⟨hk, hl, rfl⟩ | ⟨hk, h0, rfl⟩ | ⟨hk, h0, hl, rfl⟩
  · exact (if_pos hk).symm
  · simp [hk, hl]
  · simp [hk, h0]
  · rw [if_neg (not_not_intro hk), if_neg (Nat.not_lt.mpr hl), if_neg h0.ne']
    by_cases hfit : CountersFit s
    · rw [streamed_status_of_fit hfit, if_neg (Nat.not_lt.mpr hfit)]
    · rw [streamed_status_of_overflow hfit, if_pos (Nat.lt_of_not_le hfit)]

/-- What each code says of the state: 1 or 5 of its lengths, 0 or 2 of its counter values. -/
theorem processCode_cases (s : State) :
    (¬LengthsValid s ∧ (processCode s = 1 ∨ processCode s = 5)) ∨
      (LengthsValid s ∧ CountersFit s ∧ processCode s = 0) ∨
      (LengthsValid s ∧ ¬CountersFit s ∧ processCode s = 2) := by
  unfold processCode
  split_ifs with hk hl h0 hover
  · exact .inl ⟨fun hv => hk hv.keylen, .inl rfl⟩
  · exact .inl ⟨fun hv => Nat.not_lt.mpr hv.len hl, .inr rfl⟩
  all_goals have hv : LengthsValid s := ⟨not_not.mp hk, Nat.le_of_not_lt hl⟩
  · exact .inr (.inl ⟨hv, not_not.mp fun hunfit => (len_pos_of_not_countersFit hunfit).ne' h0, rfl⟩)
  · exact .inr (.inr ⟨hv, Nat.not_le.mpr hover, rfl⟩)
  · exact .inr (.inl ⟨hv, Nat.le_of_not_lt hover, rfl⟩)

theorem processCode_eq_zero_iff (s : State) : processCode s = 0 ↔ LengthsValid s ∧ CountersFit s := by
  rcases processCode_cases s with ⟨_, _ | _⟩ | ⟨_, _, _⟩ | ⟨_, _, _⟩ <;> simp [*]

theorem processCode_eq_two_iff (s : State) : processCode s = 2 ↔ LengthsValid s ∧ ¬CountersFit s := by
  rcases processCode_cases s with ⟨_, _ | _⟩ | ⟨_, _, _⟩ | ⟨_, _, _⟩ <;> simp [*]

/-! ### How many bytes a PROCESS stores -/

theorem storedBytes_of_fit {s : State} (hv : LengthsValid s) (h : CountersFit s) : storedBytes s = s.len.toNat := by
  unfold CountersFit at h
  rw [storedBytes_of_accepted hv.keylen hv.len]
  omega

theorem storedBytes_of_overflow {s : State} (hv : LengthsValid s) (h : ¬CountersFit s) :
    storedBytes s = 16 * (2 ^ 64 - s.ictr.toNat) := by
  unfold CountersFit at h
  rw [storedBytes_of_accepted hv.keylen hv.len]
  omega

/-- A byte is stored exactly when it is data and its block's index is below the first failing one. -/
theorem lt_storedBytes_iff {s : State} (hv : LengthsValid s) (a : Nat) :
    a < storedBytes s ↔ a / 16 < min ((s.len.toNat + 15) / 16) (2 ^ 64 - s.ictr.toNat) ∧ a < s.len.toNat := by
  rw [storedBytes_of_accepted hv.keylen hv.len]
  omega

/-! ### What DOUT holds after a PROCESS -/

theorem doutByte_streamed {s : State} (hv : LengthsValid s) (a : Nat) :
    doutByte (streamed s) a = if a < storedBytes s then dinByte s a ^^^ keystreamByte s a else doutByte s a := by
  have hrange : a < storedBytes s ↔ 16 * 0 ≤ a ∧
      a < 16 * (0 + min (blockCount s) (2 ^ 64 - s.ictr.toNat)) ∧ a < (expanded s).len.toNat := by
    rw [lt_storedBytes_iff hv, installSchedule_len, blockCount]
    omega
  simp only [hrange]
  unfold doutByte streamed
  rw [complete_dout, get?_writeBlocks]
  split <;> rfl

/-- DOUT after PROCESS: the stored bytes are the data exclusive-or the keystream, all others stay (R152, R156). -/
theorem process_doutByte {s t : State} (h : exec .process s = .next t) (a : Nat) :
    doutByte t a = if a < storedBytes s then dinByte s a ^^^ keystreamByte s a else doutByte s a := by
  rcases exec_process_cases h with ⟨hk, rfl⟩ | ⟨-, hl, rfl⟩ | ⟨hk, h0, rfl⟩ | ⟨hk, -, hl, rfl⟩
  · rw [storedBytes_of_refused fun ⟨hkeylen, _⟩ => hk hkeylen]; rfl
  · rw [storedBytes_of_refused fun ⟨_, hlen⟩ => Nat.not_lt.mpr hlen hl]; rfl
  · rw [storedBytes_of_accepted hk (h0 ▸ Nat.zero_le _), h0, Nat.zero_min]; rfl
  · exact doutByte_streamed ⟨hk, hl⟩ a

theorem process_stores {s t : State} (h : exec .process s = .next t) {a : Nat} (ha : a < storedBytes s) :
    doutByte t a = dinByte s a ^^^ keystreamByte s a := by
  rw [process_doutByte h, if_pos ha]

theorem process_keeps {s t : State} (h : exec .process s = .next t) {a : Nat} (ha : storedBytes s ≤ a) :
    doutByte t a = doutByte s a := by
  rw [process_doutByte h, if_neg (Nat.not_lt.mpr ha)]

/-- PROCESS writes no result register of another command (R152). -/
theorem process_other_results {s t : State} (h : exec .process s = .next t) : t.blkOut = s.blkOut ∧ t.cb = s.cb := by
  rcases exec_process_cases h with ⟨-, rfl⟩ | ⟨-, -, rfl⟩ | ⟨-, -, rfl⟩ | ⟨-, -, -, rfl⟩ <;> exact ⟨rfl, rfl⟩

/-! ### A PROCESS that succeeds -/

theorem process_err_eq_zero_iff {s t : State} (h : exec .process s = .next t) :
    t.status.err = 0 ↔ LengthsValid s ∧ CountersFit s := by
  rw [process_err h, processCode_eq_zero_iff]

theorem process_outlen_of_fit {s t : State} (hv : LengthsValid s) (hfit : CountersFit s)
    (h : exec .process s = .next t) : t.outlen = s.len :=
  BitVec.eq_of_toNat_eq ((process_outlen h).trans (storedBytes_of_fit hv hfit))

theorem process_encrypts_of_fit {s t : State} (hv : LengthsValid s) (hfit : CountersFit s)
    (h : exec .process s = .next t) {a : Nat} (ha : a < s.len.toNat) :
    doutByte t a = dinByte s a ^^^ keystreamByte s a :=
  process_stores h (by rwa [storedBytes_of_fit hv hfit])

theorem process_succeeds {s : State} (hv : LengthsValid s) (hfit : CountersFit s) :
    ∃ t, exec .process s = .next t ∧ t.status.err = 0 := by
  obtain ⟨t, h, -⟩ := exec_completes .process s
  exact ⟨t, h, (process_err_eq_zero_iff h).mpr ⟨hv, hfit⟩⟩

/-- A keystream byte depends on the key, the counter value of its block and its place in the block (R151). -/
theorem keystreamByte_congr {s u : State} {a b : Nat} (hkey : u.key = s.key)
    (hcounter : u.ictr.toNat + a / 16 = s.ictr.toNat + b / 16) (hplace : a % 16 = b % 16) :
    keystreamByte u a = keystreamByte s b := by
  rw [keystreamByte, keystreamByte, hkey, hcounter, hplace]

/-! ### The blocks in any order -/

/-- The output of block `i` of a PROCESS issued in `s`, written into `m` (R152, R159). -/
def writeBlock (s : State) (m : Memory) (i : Nat) : Memory :=
  Memory.write m (16 * i) (blockOutput s i (keystreamBlock (expanded s) i))

/-- A block's write reaches the data bytes of that block and no others (R70). -/
theorem get?_writeBlock (s : State) (m : Memory) (i a : Nat) :
    Memory.get? (writeBlock s m i) a =
      if a / 16 = i ∧ a < s.len.toNat then some (dinByte s a ^^^ keystreamByte s a) else Memory.get? m a := by
  have hslice : sliceLength s i = min 16 (s.len.toNat - 16 * i) := rfl
  rw [writeBlock, Memory.get?_write, length_blockOutput]
  by_cases h : a / 16 = i ∧ a < s.len.toNat
  · obtain ⟨rfl, ha⟩ := h
    have hplace : a - 16 * (a / 16) = a % 16 := by omega
    rw [if_pos (by omega), if_pos ⟨rfl, ha⟩, hplace, getElem?_blockOutput s _ _ (by omega), Nat.div_add_mod]
    rfl
  · rw [if_neg (by omega), if_neg h]

/-- By induction on the order: what a block writes depends on its index alone, so only the set of indices matters. -/
theorem get?_foldl_writeBlock (s : State) (order : List Nat) (m : Memory) (a : Nat) :
    Memory.get? (order.foldl (writeBlock s) m) a =
      if a / 16 ∈ order ∧ a < s.len.toNat then some (dinByte s a ^^^ keystreamByte s a) else Memory.get? m a := by
  induction order generalizing m with
  | nil => simp
  | cons i order ih =>
    rw [List.foldl_cons, ih, get?_writeBlock]
    by_cases hlen : a < s.len.toNat
    · by_cases hmem : a / 16 ∈ order <;> simp [hlen, hmem]
    · simp [hlen]

theorem doutByte_foldl_writeBlock (s : State) (order : List Nat) (a : Nat) :
    doutByte { s with dout := order.foldl (writeBlock s) s.dout } a =
      if a / 16 ∈ order ∧ a < s.len.toNat then dinByte s a ^^^ keystreamByte s a else doutByte s a := by
  unfold doutByte
  rw [get?_foldl_writeBlock]
  split <;> rfl

end Sys2Proof.Machine

namespace Sys2Proof.StreamProofs

open Sys2Proof.Machine Sys2Proof.Claims

/-- Settles O34: with every counter value within 64 bits all LEN bytes are stored, and no others. -/
theorem processEncryptsData : Obligations.ProcessEncryptsData := by
  intro s hk h0 hl hfit
  have hv : LengthsValid s := ⟨hk, hl⟩
  have hexec := exec_process_streamed hv h0
  refine ⟨streamed s, hexec, streamed_status_of_fit hfit, rfl, process_outlen_of_fit hv hfit hexec,
    fun a ha => process_encrypts_of_fit hv hfit hexec ha, fun a ha => ?beyond⟩
  case beyond => exact process_keeps hexec (by rwa [storedBytes_of_fit hv hfit])

/-- Settles O35: OUTLEN counts the stored bytes, and code 2 is reported on no other ground. -/
theorem processStopsAtCounterOverflow : Obligations.ProcessStopsAtCounterOverflow := by
  refine ⟨fun s hk hl hover => ?stops, fun s t h herr => ?onlyThen⟩
  case stops =>
    have hv : LengthsValid s := ⟨hk, hl⟩
    have hunfit : ¬CountersFit s := Nat.not_le.mpr hover
    have hexec := exec_process_streamed hv (len_pos_of_not_countersFit hunfit)
    have houtlen := process_outlen hexec
    exact ⟨streamed s, hexec, streamed_status_of_overflow hunfit, rfl,
      houtlen.trans (storedBytes_of_overflow hv hunfit), fun a ha => process_stores hexec (houtlen ▸ ha),
      fun a ha => process_keeps hexec (houtlen ▸ ha)⟩
  case onlyThen =>
    obtain ⟨⟨hk, hl⟩, hunfit⟩ := (processCode_eq_two_iff s).mp ((process_err h).symm.trans herr)
    exact ⟨hk, hl, Nat.lt_of_not_le hunfit⟩

/-- Settles O39, by the checks in their order. -/
theorem processErrorPriority : Obligations.ProcessErrorPriority := by
  intro s
  obtain ⟨t, h, -⟩ := exec_completes .process s
  exact ⟨t, h, process_err h⟩

/-- Settles O41: the operands stay under every command, the other results under each outcome of PROCESS. -/
theorem processFrame : Obligations.ProcessFrame := by
  intro s t h
  obtain ⟨hblkOut, hcb⟩ := process_other_results h
  exact ⟨exec_operandsKept h, hblkOut, hcb, fun _ => process_keeps h⟩

/-- Settles O42: both runs have the same keystream, and exclusive or with it twice is the identity. -/
theorem processIsInvolution : Obligations.ProcessIsInvolution := by
  intro s t u h herr hkey hkeylen hictr hlen hparams hdata
  obtain ⟨hv, hfit⟩ := (process_err_eq_zero_iff h).mp herr
  have hvu : LengthsValid u := ⟨hkeylen.trans hv.keylen, by rw [hlen, hparams]; exact hv.len⟩
  have hfitu : CountersFit u := by rwa [CountersFit, hictr, hlen]
  obtain ⟨v, hexec, herrv⟩ := process_succeeds hvu hfitu
  refine ⟨v, hexec, herrv, (process_outlen_of_fit hvu hfitu hexec).trans hlen, fun a ha => ?_⟩
  calc doutByte v a
    _ = dinByte u a ^^^ keystreamByte u a := process_encrypts_of_fit hvu hfitu hexec (by rwa [hlen])
    _ = (dinByte s a ^^^ keystreamByte s a) ^^^ keystreamByte s a := by
      rw [hdata a ha, process_encrypts_of_fit hv hfit h ha, keystreamByte_congr hkey (by rw [hictr]) rfl]
    _ = dinByte s a := by rw [BitVec.xor_assoc, BitVec.xor_self, BitVec.xor_zero]

/-- Settles O43: block `i` of the second part has the counter value of block `m + i` of the whole. -/
theorem processSplitsAtBlocks : Obligations.ProcessSplitsAtBlocks := by
  intro s t u v m h herr hm hkeyu hkeylenu hparamsu hictru hlenu hdatau hkeyv hkeylenv hparamsv hictrv hlenv hdatav
  obtain ⟨hv, hfit⟩ := (process_err_eq_zero_iff h).mp herr
  have ⟨hk, hl⟩ := hv
  have hsum : s.ictr.toNat + (s.len.toNat + 15) / 16 ≤ 2 ^ 64 := hfit
  have hvu : LengthsValid u := ⟨hkeylenu.trans hk, by rw [hparamsu]; omega⟩
  have hvv : LengthsValid v := ⟨hkeylenv.trans hk, by rw [hparamsv]; omega⟩
  have hfitu : CountersFit u := by rw [CountersFit, hictru]; omega
  have hfitv : CountersFit v := by rw [CountersFit]; omega
  obtain ⟨u', hexecu, herru⟩ := process_succeeds hvu hfitu
  obtain ⟨v', hexecv, herrv⟩ := process_succeeds hvv hfitv
  refine ⟨u', v', hexecu, herru, hexecv, herrv, fun a ha => ?first, fun a ha => ?rest⟩
  case first =>
    rw [process_encrypts_of_fit hv hfit h (by omega), process_encrypts_of_fit hvu hfitu hexecu (by omega),
      hdatau a ha, keystreamByte_congr hkeyu (by rw [hictru]) rfl]
  case rest =>
    rw [process_encrypts_of_fit hv hfit h (by omega), process_encrypts_of_fit hvv hfitv hexecv (by omega),
      hdatav a ha, keystreamByte_congr hkeyv (b := 16 * m + a) (by omega) (by omega)]

/-- Settles O44: any order of the blocks covers the stored bytes, each with its own value. -/
theorem blockOrderIsImmaterial : Obligations.BlockOrderIsImmaterial := by
  intro s t order hk hl hperm h a
  have hstored : (a / 16 ∈ order ∧ a < s.len.toNat) ↔ a < storedBytes s := by
    rw [hperm.mem_iff, List.mem_range, lt_storedBytes_iff ⟨hk, hl⟩]
  refine (process_doutByte h a).trans (Eq.trans ?_ (doutByte_foldl_writeBlock s order a).symm)
  simp only [hstored]

/-- Settles O36: the first check raises InvalidKeyLength after giving up the schedule. -/
theorem processRefusesKeyLength : Obligations.ProcessRefusesKeyLength := fun _ hkeylen =>
  ⟨_, execProcess_keyLength hkeylen, rfl⟩

/-- Settles O37: the second check comes before the key expansion. -/
theorem processRefusesLength : Obligations.ProcessRefusesLength := fun _ => execProcess_length

/-- Settles O38: the empty input is answered before the key expansion and before any counter. -/
theorem processEmptyInput : Obligations.ProcessEmptyInput := fun _ hkeylen hlen =>
  execProcess_empty hkeylen (congrArg BitVec.toNat hlen)

end Sys2Proof.StreamProofs

/-! Proof about the errors (60_exceptions.md): the completion of an illegal command word. -/

namespace Sys2Proof.ExceptionProofs

open Sys2Proof.Machine

/-- Settles O7: a busy sequencer makes the completion step, and for a word of no command that is `complete 3`. -/
theorem illegalCommandWritesOnlyStatus : Obligations.IllegalCommandWritesOnlyStatus := by
  intro s hbusy hop
  calc sequencerTurn s
    _ = completion s := sequencerTurn_of_busy hbusy
    _ = .next (complete 3 s) := completion_of_illegal hop
    _ = .next { s with status := { busy := false, done := true, rkvalid := s.status.rkvalid, err := 3 } } := by
      rw [complete_of_rkvalid 3 rfl]

end Sys2Proof.ExceptionProofs

/-! Proofs about reset and hazards (70_reset_and_hazards.md): RST as one step, and which host writes ENCBLK does not
see. -/

namespace Sys2Proof.Machine

open Sys2Proof.Claims

/-! ### Reset -/

theorem stepWith_rst (s : State) (rest : List Event) :
    stepWith s .rst rest = .next (resetCore { s with agenda := rest }) := by
  rw [stepWith, step_of_agenda_cons rfl, takeEvent]

/-! ### Host writes to KEY and KEYLEN -/

/-- An offset in KEYLEN, in the reserved bytes behind it, or in KEY (R26). -/
def InKeyRegisters (a : Nat) : Prop := (0x008 ≤ a ∧ a < 0x010) ∨ (0x040 ≤ a ∧ a < 0x050)

theorem regMap_keyRegisters {a : Nat} (h : InKeyRegisters a) :
    (regMap a).1 = .keylen ∨ (regMap a).1 = .reserved ∨ (regMap a).1 = .key := by
  unfold InKeyRegisters at h
  have hcases : (0x008 ≤ a ∧ a < 0x00C) ∨ (0x00C ≤ a ∧ a < 0x010) ∨ (0x040 ≤ a ∧ a < 0x050) := by omega
  rcases hcases with ⟨hlow, hhigh⟩ | hreserved | ⟨hlow, hhigh⟩
  · obtain ⟨k, rfl⟩ := Nat.exists_eq_add_of_le hlow
    have hk : k < 4 := by omega
    exact .inl (congrArg Prod.fst (regMap_base (l := .keylen) (by simp) hk))
  · exact .inr (.inl (regMap_reserved (.inl hreserved)))
  · obtain ⟨k, rfl⟩ := Nat.exists_eq_add_of_le hlow
    have hk : k < 16 := by omega
    exact .inr (.inr (congrArg Prod.fst (regMap_base (l := .key) (by simp) hk)))

theorem writeByte_keyRegisters {a : Nat} (h : InKeyRegisters a) (b : Byte) (s : State) :
    ∃ key keylen, writeByte .reg a b s = { s with key := key, keylen := keylen } := by
  rw [writeByte]
  rcases regMap_keyRegisters h with hl | hl | hl <;> rw [hl] <;> exact ⟨_, _, rfl⟩

/-- Such a write changes no field but KEY and KEYLEN: its reserved bytes are dropped (R64, R73). -/
theorem writeBytes_keyRegisters {off n : Nat} (h : ∀ k, k < n → InKeyRegisters (off + k)) (v : BitVec 64) (s : State) :
    ∃ key keylen, writeBytes .reg off v n s = { s with key := key, keylen := keylen } := by
  induction n with
  | zero => exact ⟨s.key, s.keylen, rfl⟩
  | succ n ih =>
    obtain ⟨_, _, hbefore⟩ := ih fun k hk => h k (Nat.lt_succ_of_lt hk)
    rw [writeBytes, hbefore]
    exact writeByte_keyRegisters (h n (Nat.lt_succ_self n)) (lane v n) _

/-- ENCBLK reads the schedule, RKVALID and BLK_IN, and beside STATUS it writes BLK_OUT at most (R137, R198). -/
theorem exec_encblk_congr {s s' : State} (hrk : s'.rk = s.rk) (hblkIn : s'.blkIn = s.blkIn)
    (hblkOut : s'.blkOut = s.blkOut) (hstatus : s'.status = s.status) :
    ∃ t t', exec .encblk s = .next t ∧ exec .encblk s' = .next t' ∧ t'.blkOut = t.blkOut ∧ t'.status = t.status := by
  cases hvalid : s.status.rkvalid with
  | true =>
    refine ⟨_, _, exec_encblk_ok hvalid, exec_encblk_ok (hstatus ▸ hvalid), ?_, ?_⟩
    · simp [hrk, hblkIn]
    · simp [hstatus]
  | false =>
    refine ⟨_, _, exec_encblk_refused hvalid, exec_encblk_refused (hstatus ▸ hvalid), ?_, ?_⟩
    · simpa using hblkOut
    · simp [hstatus]

end Sys2Proof.Machine

namespace Sys2Proof.HazardProofs

open Sys2Proof.Machine Sys2Proof.Claims

/-- Settles O28: the write changes KEY and KEYLEN only, and ENCBLK reads neither. -/
theorem encblkIgnoresKeyWrites : Obligations.EncblkIgnoresKeyWrites := by
  intro s off n v hbusy htaken hrange
  have hbytes : ∀ k, k < n → InKeyRegisters (off + k) := fun k hk => by unfold InKeyRegisters; omega
  have hcmd : ¬(Win.reg = .reg ∧ off = 0) := by omega
  obtain ⟨key, keylen, hwrite⟩ := writeBytes_keyRegisters hbytes v { s with agenda := [] }
  have hstep := stepWith_write_store v [] hbusy htaken hcmd
  rw [hwrite] at hstep
  obtain ⟨t, t', hexec⟩ := exec_encblk_congr (s := s)
    (s' := reply .ack { s with agenda := [], key := key, keylen := keylen }) rfl rfl rfl rfl
  exact ⟨_, t, t', hstep, hexec⟩

/-- Settles O55: the state after RST has the fields of the reset state, but for those of the host and the platform. -/
theorem resetInputClearsState : Obligations.ResetInputClearsState := by
  intro s rest
  obtain ⟨hstatus, hkeylen, hictr, hblkidx, hlen, houtlen, harrays⟩ := StateProofs.resetValues
  exact ⟨_, stepWith_rst s rest, hstatus, hkeylen, hictr, hblkidx, hlen, houtlen, harrays, rfl, rfl, rfl⟩

end Sys2Proof.HazardProofs
